-- ==== Sys2Proof/Word.lean ====
section
/-!
DEFINITION. The word types of the machine (spec/00_scope.md R6, R7, R12): widths only, no arithmetic of its own.
A value of `w` bits is a `BitVec w`, unsigned, bit 0 the least significant.
-/
namespace Sys2Proof

/-- 8 bits: a register, a byte of memory, a timer, an immediate `kk`. -/
abbrev Byte := BitVec 8

/-- 16 bits: an instruction word, `I`, `pc`, a stack entry. -/
abbrev Word := BitVec 16

/-- 4 bits: a register number `x` or `y`, a row count `n`, `sp`, a key number. -/
abbrev Nibble := BitVec 4

/-- 12 bits: the address operand `nnn`. -/
abbrev Addr12 := BitVec 12

end Sys2Proof
end

