-- ==== Sys2Proof/Syntax.lean ====
section
/-!
DEFINITION. The instructions: one constructor per row of spec/opcode_table.json, its operand fields as R101 to R103 of
spec/30_encoding.md give them. The comment of a constructor is its opcode pattern and the rule of its semantics.
-/
namespace Sys2Proof

inductive Instr where
  /-- `0nnn`, R155; every word of family 0 but 0x00E0 and 0x00EE -/
  | sys (nnn : Addr12)
  /-- `00E0`, R253 -/
  | cls
  /-- `00EE`, R157 -/
  | ret
  /-- `1nnn`, R159 -/
  | jp (nnn : Addr12)
  /-- `2nnn`, R161 -/
  | call (nnn : Addr12)
  /-- `3xkk`, R163 -/
  | seImm (x : Nibble) (kk : Byte)
  /-- `4xkk`, R165 -/
  | sneImm (x : Nibble) (kk : Byte)
  /-- `5xy0`, R167 -/
  | seReg (x y : Nibble)
  /-- `6xkk`, R201 -/
  | ldImm (x : Nibble) (kk : Byte)
  /-- `7xkk`, R203 -/
  | addImm (x : Nibble) (kk : Byte)
  /-- `8xy0`, R205 -/
  | ldReg (x y : Nibble)
  /-- `8xy1`, R206 -/
  | orReg (x y : Nibble)
  /-- `8xy2`, R207 -/
  | andReg (x y : Nibble)
  /-- `8xy3`, R208 -/
  | xorReg (x y : Nibble)
  /-- `8xy4`, R211 -/
  | addReg (x y : Nibble)
  /-- `8xy5`, R213 -/
  | sub (x y : Nibble)
  /-- `8xy6`, R215; `y` is decoded and not used -/
  | shr (x y : Nibble)
  /-- `8xy7`, R217 -/
  | subn (x y : Nibble)
  /-- `8xyE`, R219; `y` is decoded and not used -/
  | shl (x y : Nibble)
  /-- `9xy0`, R169 -/
  | sneReg (x y : Nibble)
  /-- `Annn`, R221 -/
  | ldI (nnn : Addr12)
  /-- `Bnnn`, R171 -/
  | jpV0 (nnn : Addr12)
  /-- `Cxkk`, R223 -/
  | rnd (x : Nibble) (kk : Byte)
  /-- `Dxyn`, R255 -/
  | drw (x y n : Nibble)
  /-- `Ex9E`, R281 -/
  | skp (x : Nibble)
  /-- `ExA1`, R283 -/
  | sknp (x : Nibble)
  /-- `Fx07`, R290 -/
  | ldVDt (x : Nibble)
  /-- `Fx0A`, R292 -/
  | ldVK (x : Nibble)
  /-- `Fx15`, R294 -/
  | ldDtV (x : Nibble)
  /-- `Fx18`, R296 -/
  | ldStV (x : Nibble)
  /-- `Fx1E`, R300 -/
  | addIV (x : Nibble)
  /-- `Fx29`, R304 -/
  | ldFV (x : Nibble)
  /-- `Fx33`, R310 -/
  | ldBV (x : Nibble)
  /-- `Fx55`, R314 -/
  | ldMemV (x : Nibble)
  /-- `Fx65`, R316 -/
  | ldVMem (x : Nibble)
  deriving DecidableEq, Repr

end Sys2Proof
end

