-- ==== Sys2Proof/WellFormed.lean ====
section
/-!
DEFINITION. Which terms of `Instr` are instructions of the machine. The types of the fields carry every range check of
R101; one check is left: the words 0x00E0 and 0x00EE are never `0nnn` (spec/30_encoding.md R105).
-/
namespace Sys2Proof

/-- A `0nnn` whose `nnn` would spell `00E0` or `00EE` is no instruction (R105); every other term is. -/
def Instr.wellFormed (i : Instr) : Bool :=
  match i with
  | .sys nnn => nnn != 0x0E0#12 && nnn != 0x0EE#12
  | .cls | .ret | .jp _ | .call _ | .seImm _ _ | .sneImm _ _ | .seReg _ _ => true
  | .ldImm _ _ | .addImm _ _ | .ldReg _ _ | .orReg _ _ | .andReg _ _ | .xorReg _ _ => true
  | .addReg _ _ | .sub _ _ | .shr _ _ | .subn _ _ | .shl _ _ | .sneReg _ _ => true
  | .ldI _ | .jpV0 _ | .rnd _ _ | .drw _ _ _ | .skp _ | .sknp _ => true
  | .ldVDt _ | .ldVK _ | .ldDtV _ | .ldStV _ | .addIV _ | .ldFV _ => true
  | .ldBV _ | .ldMemV _ | .ldVMem _ => true

end Sys2Proof
end

