-- ==== Sys2Proof/Decode.lean ====
section
/-!
DEFINITION. The decoder and, after it, the encoder (spec/30_encoding.md R100 to R107). Decoding is total on the 65536
words: a word is an instruction or is rejected by the name `unrecognized` with the word itself (R107, R134).
-/
namespace Sys2Proof

/-! ## Fields (R101) -/

/-- `op = w[15:12]`, the opcode family. -/
def opField (w : Word) : Nibble := w.extractLsb' 12 4

/-- `x = w[11:8]`. -/
def xField (w : Word) : Nibble := w.extractLsb' 8 4

/-- `y = w[7:4]`. -/
def yField (w : Word) : Nibble := w.extractLsb' 4 4

/-- `n = w[3:0]`. -/
def nField (w : Word) : Nibble := w.extractLsb' 0 4

/-- `kk = w[7:0]`. -/
def kkField (w : Word) : Byte := w.extractLsb' 0 8

/-- `nnn = w[11:0]`. -/
def nnnField (w : Word) : Addr12 := w.extractLsb' 0 12

/-! ## Decoding -/

/-- What the decoder answers for a word (R134). -/
inductive Decoded where
  /-- the word is this instruction -/
  | instr (i : Instr)
  /-- the word is one of the 17488 of R107 -/
  | unrecognized (w : Word)
  deriving DecidableEq, Repr

/-- Family 0: the two exact words first, everything else `0nnn` (R105). -/
def decodeFamily0 (w : Word) : Decoded :=
  if w = 0x00E0#16 then .instr .cls
  else if w = 0x00EE#16 then .instr .ret
  else .instr (.sys (nnnField w))

/-- Family 5: `n` must be 0 (R104, R106). -/
def decodeFamily5 (w : Word) : Decoded :=
  if nField w = 0x0#4 then .instr (.seReg (xField w) (yField w)) else .unrecognized w

/-- Family 8: `n` selects the operation (R104). -/
def decodeFamily8 (w : Word) : Decoded :=
  if nField w = 0x0#4 then .instr (.ldReg (xField w) (yField w))
  else if nField w = 0x1#4 then .instr (.orReg (xField w) (yField w))
  else if nField w = 0x2#4 then .instr (.andReg (xField w) (yField w))
  else if nField w = 0x3#4 then .instr (.xorReg (xField w) (yField w))
  else if nField w = 0x4#4 then .instr (.addReg (xField w) (yField w))
  else if nField w = 0x5#4 then .instr (.sub (xField w) (yField w))
  else if nField w = 0x6#4 then .instr (.shr (xField w) (yField w))
  else if nField w = 0x7#4 then .instr (.subn (xField w) (yField w))
  else if nField w = 0xE#4 then .instr (.shl (xField w) (yField w))
  else .unrecognized w

/-- Family 9: `n` must be 0 (R104, R106). -/
def decodeFamily9 (w : Word) : Decoded :=
  if nField w = 0x0#4 then .instr (.sneReg (xField w) (yField w)) else .unrecognized w

/-- Family E: `kk` selects the operation (R104). -/
def decodeFamilyE (w : Word) : Decoded :=
  if kkField w = 0x9E#8 then .instr (.skp (xField w))
  else if kkField w = 0xA1#8 then .instr (.sknp (xField w))
  else .unrecognized w

/-- Family F: `kk` selects the operation (R104). -/
def decodeFamilyF (w : Word) : Decoded :=
  if kkField w = 0x07#8 then .instr (.ldVDt (xField w))
  else if kkField w = 0x0A#8 then .instr (.ldVK (xField w))
  else if kkField w = 0x15#8 then .instr (.ldDtV (xField w))
  else if kkField w = 0x18#8 then .instr (.ldStV (xField w))
  else if kkField w = 0x1E#8 then .instr (.addIV (xField w))
  else if kkField w = 0x29#8 then .instr (.ldFV (xField w))
  else if kkField w = 0x33#8 then .instr (.ldBV (xField w))
  else if kkField w = 0x55#8 then .instr (.ldMemV (xField w))
  else if kkField w = 0x65#8 then .instr (.ldVMem (xField w))
  else .unrecognized w

/-- The decoder of one instruction word: the family by `op`, then the family's own selector (R104). -/
def decode (w : Word) : Decoded :=
  if opField w = 0x0#4 then decodeFamily0 w
  else if opField w = 0x1#4 then .instr (.jp (nnnField w))
  else if opField w = 0x2#4 then .instr (.call (nnnField w))
  else if opField w = 0x3#4 then .instr (.seImm (xField w) (kkField w))
  else if opField w = 0x4#4 then .instr (.sneImm (xField w) (kkField w))
  else if opField w = 0x5#4 then decodeFamily5 w
  else if opField w = 0x6#4 then .instr (.ldImm (xField w) (kkField w))
  else if opField w = 0x7#4 then .instr (.addImm (xField w) (kkField w))
  else if opField w = 0x8#4 then decodeFamily8 w
  else if opField w = 0x9#4 then decodeFamily9 w
  else if opField w = 0xA#4 then .instr (.ldI (nnnField w))
  else if opField w = 0xB#4 then .instr (.jpV0 (nnnField w))
  else if opField w = 0xC#4 then .instr (.rnd (xField w) (kkField w))
  else if opField w = 0xD#4 then .instr (.drw (xField w) (yField w) (nField w))
  else if opField w = 0xE#4 then decodeFamilyE w
  else decodeFamilyF w

/-- The instruction word of two fetched bytes, the first one high (spec/20_memory.md R72). -/
def wordOfBytes (hi lo : Byte) : Word := hi ++ lo

/-- Why a list of bytes holds no instruction at its head. -/
inductive DecodeError where
  /-- fewer than the two bytes every instruction has (R100) -/
  | tooShort
  /-- two bytes, and the word they make is unrecognized (R107) -/
  | unrecognized (w : Word)
  deriving DecidableEq, Repr

/-- The instruction at the head of a list of bytes, and the bytes after it. A decoder always consumes exactly 2 bytes
(R100). -/
def decodeBytes : List Byte → Except DecodeError (Instr × List Byte)
  | hi :: lo :: rest =>
    match decode (wordOfBytes hi lo) with
    | .instr i => .ok (i, rest)
    | .unrecognized w => .error (.unrecognized w)
  | _ => .error .tooShort

/-! ## Encoding (R102, R104) -/

/-- The word of a format `NNN` instruction. -/
def wordNNN (op : Nibble) (nnn : Addr12) : Word := op ++ nnn

/-- The word of a format `XKK` instruction. -/
def wordXKK (op x : Nibble) (kk : Byte) : Word := op ++ (x ++ kk : BitVec 12)

/-- The word of a format `XYN` or `XYNDRAW` instruction. -/
def wordXYN (op x y n : Nibble) : Word := op ++ (x ++ (y ++ n : BitVec 8) : BitVec 12)

/-- The instruction word of an instruction; the inverse of `decode` on well-formed instructions. -/
def encode (i : Instr) : Word :=
  match i with
  | .sys nnn => wordNNN 0x0#4 nnn
  | .cls => 0x00E0#16
  | .ret => 0x00EE#16
  | .jp nnn => wordNNN 0x1#4 nnn
  | .call nnn => wordNNN 0x2#4 nnn
  | .seImm x kk => wordXKK 0x3#4 x kk
  | .sneImm x kk => wordXKK 0x4#4 x kk
  | .seReg x y => wordXYN 0x5#4 x y 0x0#4
  | .ldImm x kk => wordXKK 0x6#4 x kk
  | .addImm x kk => wordXKK 0x7#4 x kk
  | .ldReg x y => wordXYN 0x8#4 x y 0x0#4
  | .orReg x y => wordXYN 0x8#4 x y 0x1#4
  | .andReg x y => wordXYN 0x8#4 x y 0x2#4
  | .xorReg x y => wordXYN 0x8#4 x y 0x3#4
  | .addReg x y => wordXYN 0x8#4 x y 0x4#4
  | .sub x y => wordXYN 0x8#4 x y 0x5#4
  | .shr x y => wordXYN 0x8#4 x y 0x6#4
  | .subn x y => wordXYN 0x8#4 x y 0x7#4
  | .shl x y => wordXYN 0x8#4 x y 0xE#4
  | .sneReg x y => wordXYN 0x9#4 x y 0x0#4
  | .ldI nnn => wordNNN 0xA#4 nnn
  | .jpV0 nnn => wordNNN 0xB#4 nnn
  | .rnd x kk => wordXKK 0xC#4 x kk
  | .drw x y n => wordXYN 0xD#4 x y n
  | .skp x => wordXKK 0xE#4 x 0x9E#8
  | .sknp x => wordXKK 0xE#4 x 0xA1#8
  | .ldVDt x => wordXKK 0xF#4 x 0x07#8
  | .ldVK x => wordXKK 0xF#4 x 0x0A#8
  | .ldDtV x => wordXKK 0xF#4 x 0x15#8
  | .ldStV x => wordXKK 0xF#4 x 0x18#8
  | .addIV x => wordXKK 0xF#4 x 0x1E#8
  | .ldFV x => wordXKK 0xF#4 x 0x29#8
  | .ldBV x => wordXKK 0xF#4 x 0x33#8
  | .ldMemV x => wordXKK 0xF#4 x 0x55#8
  | .ldVMem x => wordXKK 0xF#4 x 0x65#8

/-- The high byte of a word, stored at the lower address (R72). -/
def highByte (w : Word) : Byte := w.extractLsb' 8 8

/-- The low byte of a word, stored at the higher address (R72). -/
def lowByte (w : Word) : Byte := w.extractLsb' 0 8

/-- The bytes of a word as memory holds them. -/
def bytesOfWord (w : Word) : List Byte := [highByte w, lowByte w]

/-- The bytes of an instruction. -/
def encodeBytes (i : Instr) : List Byte := bytesOfWord (encode i)

/-! ## The opcode table's own view -/

/-- The row of spec/opcode_table.json an instruction belongs to, as its `mask` and `match`. -/
def Instr.row (i : Instr) : Word × Word :=
  match i with
  | .sys _ => (0xF000#16, 0x0000#16)
  | .cls => (0xFFFF#16, 0x00E0#16)
  | .ret => (0xFFFF#16, 0x00EE#16)
  | .jp _ => (0xF000#16, 0x1000#16)
  | .call _ => (0xF000#16, 0x2000#16)
  | .seImm _ _ => (0xF000#16, 0x3000#16)
  | .sneImm _ _ => (0xF000#16, 0x4000#16)
  | .seReg _ _ => (0xF00F#16, 0x5000#16)
  | .ldImm _ _ => (0xF000#16, 0x6000#16)
  | .addImm _ _ => (0xF000#16, 0x7000#16)
  | .ldReg _ _ => (0xF00F#16, 0x8000#16)
  | .orReg _ _ => (0xF00F#16, 0x8001#16)
  | .andReg _ _ => (0xF00F#16, 0x8002#16)
  | .xorReg _ _ => (0xF00F#16, 0x8003#16)
  | .addReg _ _ => (0xF00F#16, 0x8004#16)
  | .sub _ _ => (0xF00F#16, 0x8005#16)
  | .shr _ _ => (0xF00F#16, 0x8006#16)
  | .subn _ _ => (0xF00F#16, 0x8007#16)
  | .shl _ _ => (0xF00F#16, 0x800E#16)
  | .sneReg _ _ => (0xF00F#16, 0x9000#16)
  | .ldI _ => (0xF000#16, 0xA000#16)
  | .jpV0 _ => (0xF000#16, 0xB000#16)
  | .rnd _ _ => (0xF000#16, 0xC000#16)
  | .drw _ _ _ => (0xF000#16, 0xD000#16)
  | .skp _ => (0xF0FF#16, 0xE09E#16)
  | .sknp _ => (0xF0FF#16, 0xE0A1#16)
  | .ldVDt _ => (0xF0FF#16, 0xF007#16)
  | .ldVK _ => (0xF0FF#16, 0xF00A#16)
  | .ldDtV _ => (0xF0FF#16, 0xF015#16)
  | .ldStV _ => (0xF0FF#16, 0xF018#16)
  | .addIV _ => (0xF0FF#16, 0xF01E#16)
  | .ldFV _ => (0xF0FF#16, 0xF029#16)
  | .ldBV _ => (0xF0FF#16, 0xF033#16)
  | .ldMemV _ => (0xF0FF#16, 0xF055#16)
  | .ldVMem _ => (0xF0FF#16, 0xF065#16)

/-- The instruction word whose bits, numbered as spec/opcode_table.json numbers them, are the low `nbits` bits of `w`;
the bits above are 0. -/
def wordOfTableBits (nbits w : Nat) : Word := BitVec.ofNat 16 (w % 2 ^ nbits)

/-- The instruction the decoder reads from an instruction whose bits are `w`: the word is laid out in memory order and
given to `decodeBytes`. -/
def decodeTableWord (nbits w : Nat) : Option Instr :=
  match decodeBytes (bytesOfWord (wordOfTableBits nbits w)) with
  | .ok (i, _) => some i
  | .error _ => none

end Sys2Proof
end

