-- ==== Sys2Proof/Config.lean ====
section
/-!
DEFINITION. What this implementation fixes (spec/00_scope.md R6) and the values the spec leaves open. The open values
are `opaque`, without a body: nothing in Lean can evaluate them, so whatever is proved holds for every value of them.
-/
namespace Sys2Proof.Config

/-- `MEMORY_SIZE` (R6, R70). -/
def memorySize : Nat := 4096

/-- `LOAD_ADDRESS`, the reset value of `pc` (R6, R50, D18). -/
def loadAddress : Word := 0x0200#16

/-- `FONT_BASE` (R6, R304, D17). -/
def fontBase : Word := 0x0000#16

/-- Bytes of one font glyph (R6, R304). -/
def glyphBytes : Nat := 5

/-- The flag register is `V[0xF]` (R6, R34). -/
def flagReg : Nibble := 0xF#4

/-- The free value of R16 and U11: the byte the entropy source answers to the `k`-th call of `Entropy()`, counted from 0.
It has no body, because the spec lets the byte be any value 0x00 to 0xFF and no rule may assume a distribution (D20,
log entry 2). -/
opaque entropy (k : Nat) : Byte

/-- `INSTR_RATE`, an OPEN parameter (R6, R386, U14, D25). No rule reads it, so nothing in the model does. -/
opaque instrRate : Nat

/-- `TIMER_HZ`, an OPEN parameter (R6, R353, U15, D25). No rule reads it, so nothing in the model does. -/
opaque timerHz : Nat

/-- The hexadecimal font of R306, 16 glyphs of 5 bytes, digit 0 first. Reset does not write it: the host loads it at
`fontBase` (R375, C9). -/
def font : List Byte :=
  [0xF0, 0x90, 0x90, 0x90, 0xF0] ++ [0x20, 0x60, 0x20, 0x20, 0x70] ++
  [0xF0, 0x10, 0xF0, 0x80, 0xF0] ++ [0xF0, 0x10, 0xF0, 0x10, 0xF0] ++
  [0x90, 0x90, 0xF0, 0x10, 0x10] ++ [0xF0, 0x80, 0xF0, 0x10, 0xF0] ++
  [0xF0, 0x80, 0xF0, 0x90, 0xF0] ++ [0xF0, 0x10, 0x20, 0x40, 0x40] ++
  [0xF0, 0x90, 0xF0, 0x90, 0xF0] ++ [0xF0, 0x90, 0xF0, 0x10, 0xF0] ++
  [0xF0, 0x90, 0xF0, 0x90, 0x90] ++ [0xE0, 0x90, 0xE0, 0x90, 0xE0] ++
  [0xF0, 0x80, 0x80, 0x80, 0xF0] ++ [0xE0, 0x90, 0x90, 0x90, 0xE0] ++
  [0xF0, 0x80, 0xF0, 0x80, 0xF0] ++ [0xF0, 0x80, 0xF0, 0x80, 0x80]

end Sys2Proof.Config
end

