-- ==== Sys2Proof/Machine/State.lean ====
section
/-!
DEFINITION. The state of the machine, its reasons to stop, and its reset state (spec/10_state.md R30, R50,
spec/60_exceptions.md R341). Plain data only.
-/
namespace Sys2Proof.Machine

/-- Memory in canonical form: pairs of address and byte, addresses strictly rising, no pair that holds what an unlisted
address reads as (`Memory.unlisted`, 0x00). `Memory.wf` says so. -/
abbrev Memory := List Host.Cell

/-- The packed 64 by 32 bitmap, 256 bytes (R46). -/
abbrev Display := Vector Byte 256

/-- The architectural state (R30), field by field, and one field of the model's own, `entropyCount`. -/
structure State where
  /-- `memory`, 4096 bytes (R70) -/
  mem : Memory
  /-- `V[0x0]` to `V[0xF]` (R32); `V[0xF]` is the flag register VF (R34) -/
  v : Vector Byte 16
  /-- `I`, the index register (R36) -/
  i : Word
  /-- the program counter (R37) -/
  pc : Word
  /-- the stack pointer, the number of return addresses on the stack (R41) -/
  sp : Nibble
  /-- the return-address stack (R42) -/
  stack : Vector Word 16
  /-- `DT`, the delay timer (R43) -/
  dt : Byte
  /-- `ST`, the sound timer (R44) -/
  st : Byte
  /-- the key-down flags (R45) -/
  keypad : Vector Bool 16
  /-- the display bitmap (R46) -/
  display : Display
  /-- THE MODEL'S OWN: how many entropy bytes have been drawn; it indexes the free value `Config.entropy` (log entry 2) -/
  entropyCount : Nat
  deriving DecidableEq, Repr

/-- The `src` of an `OUT_OF_BOUNDS` error (R341). -/
inductive AccessSource where
  /-- code 0: an instruction fetch -/
  | fetch
  /-- code 1: a data access through `I` -/
  | memory
  /-- code 2: a keypad index -/
  | key
  /-- code 3: a font digit -/
  | font
  deriving DecidableEq, Repr

/-- The error kinds of R341 with their information. Each ends the cycle and commits nothing (R136), so the state after it
is the state before it; the host may request another cycle (R349). -/
inductive Fault where
  /-- code 1, raised by decode for the 17488 words of R107; safe: it is the outcome the spec gives -/
  | unrecognizedInstruction (word : Word)
  /-- code 2, raised by CALL when `sp` is 15 (R344); safe: it is the outcome the spec gives -/
  | stackOverflow (sp : Nibble)
  /-- code 3, raised by RET when `sp` is 0 (R345); safe: it is the outcome the spec gives -/
  | stackUnderflow (sp : Nibble)
  /-- code 4, raised by fetch, DRW, LD_B_V, LD_MEM_V, LD_V_MEM, SKP, SKNP and LD_F_V (R343); safe: it is the outcome the
  spec gives -/
  | outOfBounds (src : AccessSource) (base : Word)
  deriving DecidableEq, Repr

/-- What the model has no move for. -/
inductive Refusal where
  /-- an instruction without a meaning, raised by an arm of `exec`; no arm raises it; safe -/
  | notModelled (mnemonic : String)
  /-- the host's `LoadBytes` past the end of memory (R374, U10), raised by the host operation and by no instruction; safe:
  the spec says a model refuses it -/
  | loadOutOfRange
  /-- the host's `LoadBytes` after the first cycle (R362, U17), raised by the host operation and by no instruction; safe:
  the spec says a model refuses it -/
  | loadAfterFirstCycle
  deriving DecidableEq, Repr

/-- The machine right after reset: everything zero but `pc = LOAD_ADDRESS` (R50, R370). Memory lists nothing: every byte
reads 0x00. -/
def State.reset : State where
  mem := []
  v := Vector.replicate 16 0x00#8
  i := 0x0000#16
  pc := Config.loadAddress
  sp := 0x0#4
  stack := Vector.replicate 16 0x0000#16
  dt := 0x00#8
  st := 0x00#8
  keypad := Vector.replicate 16 false
  display := Vector.replicate 256 0x00#8
  entropyCount := 0

end Sys2Proof.Machine
end

