-- ==== Sys2Proof/Machine/Ops.lean ====
section
/-!
DEFINITION. The named operations over memory, registers, stack and keypad, raising an error, and fetching an instruction
word. Every access to a field of the state that has a rule of its own goes through here.
-/
namespace Sys2Proof.Machine

/-! ## Memory (spec/20_memory.md) -/

/-- What an address that memory does not list reads as: the reset contents (R50, log entry 1). -/
def Memory.unlisted : Byte := 0x00#8

/-- `memory[a]` (R10). -/
def Memory.read : Memory → Nat → Byte
  | [], _ => Memory.unlisted
  | (c, b) :: rest, a => if a = c then b else Memory.read rest a

/-- `memory[a] <- b` (R10), keeping the canonical form: writing what an unlisted address reads as removes the entry. -/
def Memory.write : Memory → Nat → Byte → Memory
  | [], a, b => if b = Memory.unlisted then [] else [(a, b)]
  | (c, d) :: rest, a, b =>
    if a < c then (if b = Memory.unlisted then (c, d) :: rest else (a, b) :: (c, d) :: rest)
    else if a = c then (if b = Memory.unlisted then rest else (a, b) :: rest)
    else (c, d) :: Memory.write rest a b

/-- The canonical form of a memory all of whose entries lie at `lo` or above. -/
def Memory.wfFrom (lo : Nat) : Memory → Bool
  | [] => true
  | (a, b) :: rest =>
    decide (lo ≤ a) && decide (a < Config.memorySize) && decide (b ≠ Memory.unlisted) && Memory.wfFrom (a + 1) rest

/-- The canonical form: addresses strictly rising and inside the address space, no entry that says what an unlisted address
reads as. -/
def Memory.wf (m : Memory) : Bool := Memory.wfFrom 0 m

/-- `n` bytes at increasing addresses from `a` (R73). -/
def Memory.readBytes (m : Memory) (a : Nat) : Nat → List Byte
  | 0 => []
  | n + 1 => Memory.read m a :: Memory.readBytes m (a + 1) n

/-- The bytes stored one by one at increasing addresses from `a` (R73). -/
def Memory.writeBytes (m : Memory) (a : Nat) : List Byte → Memory
  | [] => m
  | b :: bs => Memory.writeBytes (Memory.write m a b) (a + 1) bs

/-- The byte of the machine's memory at `a`. -/
def State.readByte (s : State) (a : Nat) : Byte := Memory.read s.mem a

/-- `n` bytes of the machine's memory from `a`. -/
def State.readBytes (s : State) (a n : Nat) : List Byte := Memory.readBytes s.mem a n

/-- The bytes stored into the machine's memory from `a`. -/
def State.writeBytes (s : State) (a : Nat) (bs : List Byte) : State :=
  { s with mem := Memory.writeBytes s.mem a bs }

/-! ## Registers (spec/10_state.md) -/

/-- `V[x]` (R32). -/
def State.readV (s : State) (x : Nibble) : Byte := s.v.get x.toFin

/-- `V[x] <- b` (R32); no register is hardwired. -/
def State.writeV (s : State) (x : Nibble) (b : Byte) : State := { s with v := s.v.set x.toNat b x.isLt }

/-- `VF` (R34). -/
def State.flag (s : State) : Byte := s.readV Config.flagReg

/-- `VF <- b` (R34). -/
def State.writeFlag (s : State) (b : Byte) : State := s.writeV Config.flagReg b

/-- `I <- w` (R36). -/
def State.writeI (s : State) (w : Word) : State := { s with i := w }

/-- `pc <- target` (R9, R37). -/
def State.writePc (s : State) (w : Word) : State := { s with pc := w }

/-- The advance of `pc` by 2 (mod 2^16) that fetch makes before the handler runs, and that a taken skip makes once more
(R133, R151, D5). -/
def State.advancePc (s : State) : State := s.writePc (s.pc + 2#16)

/-- `DT <- b` (R43). -/
def State.writeDt (s : State) (b : Byte) : State := { s with dt := b }

/-- `ST <- b` (R44). -/
def State.writeSt (s : State) (b : Byte) : State := { s with st := b }

/-- `keypad[k]` (R45). -/
def State.keyDown (s : State) (k : Nibble) : Bool := s.keypad.get k.toFin

/-- `display <- d` (R46). -/
def State.writeDisplay (s : State) (d : Display) : State := { s with display := d }

/-- One byte has been drawn from the entropy source (R16, log entry 2). -/
def State.countEntropy (s : State) : State := { s with entropyCount := s.entropyCount + 1 }

/-! ## Stack (R41, R42) -/

/-- `stack[j]`. -/
def State.stackAt (s : State) (j : Nibble) : Word := s.stack.get j.toFin

/-- `sp <- sp + 1`, then `stack[sp] <- w` (R161). The caller has checked `sp ≠ 15`. -/
def State.push (s : State) (w : Word) : State :=
  { s with sp := s.sp + 1#4, stack := s.stack.set (s.sp + 1#4).toNat w (s.sp + 1#4).isLt }

/-- `sp <- sp - 1`; the popped entry keeps its value (R157, R42). The caller has checked `sp ≠ 0`. -/
def State.pop (s : State) : State := { s with sp := s.sp - 1#4 }

/-! ## Errors (spec/00_scope.md R11, spec/60_exceptions.md) -/

/-- `raise E(info)`: the cycle ends with the error and discards every write it made (R11, R136). This is all that taking an
exception is on this machine: nothing is saved, no mode changes and control goes nowhere (R348). There is no return from
it (R349), so no operation stands beside this one. -/
def raise (e : Fault) : Host.Outcome State Fault Refusal := .fault e

/-- The address check of a data access through `I` to the bytes `I` to `I + last` (R75): the sum is unbounded, and a range
that leaves memory raises `OUT_OF_BOUNDS(MEMORY, I)` before any access; otherwise the access `k` goes on. -/
def withRange (s : State) (last : Nat) (k : Host.Outcome State Fault Refusal) : Host.Outcome State Fault Refusal :=
  if s.i.toNat + last ≥ Config.memorySize then raise (.outOfBounds .memory s.i) else k

/-- The check of an index `V[x]` into a table of 16 (R280, R304): above 0xF it raises `OUT_OF_BOUNDS(src, V[x])`, otherwise
`k` goes on with the index. -/
def withIndex (src : AccessSource) (b : Byte) (k : Nibble → Host.Outcome State Fault Refusal) :
    Host.Outcome State Fault Refusal :=
  if b.toNat > 0xF then raise (.outOfBounds src (b.setWidth 16)) else k (b.setWidth 4)

/-! ## Fetch (spec/40_cycle.md R131 to R133) -/

/-- Both bytes at `pc` lie in memory: `pc ≤ MEMORY_SIZE - 2` (R132). -/
def State.fetchable (s : State) : Bool := decide (s.pc.toNat ≤ Config.memorySize - 2)

/-- The word at `pc`: `memory[pc]` high, `memory[pc + 1]` low (R72). -/
def State.wordAtPc (s : State) : Word := wordOfBytes (s.readByte s.pc.toNat) (s.readByte (s.pc.toNat + 1))

/-- The fetch unit: the word at `pc`, or `OUT_OF_BOUNDS(FETCH, pc)` when `pc` is above 0xFFE (R132). -/
def fetchWord (s : State) : Except Fault Word :=
  if s.fetchable then .ok s.wordAtPc else .error (.outOfBounds .fetch s.pc)

end Sys2Proof.Machine
end

