-- ==== Sys2Proof/Machine/Operands.lean ====
section
/-!
DEFINITION. The operand forms (spec/30_encoding.md R101 to R103): registers, immediates and addresses, all unsigned; the
conditional skip; the lists of registers that the memory transfers name. Memory operands are `I`-based ranges of bytes
(spec/20_memory.md R77); their address is computed here.
-/
namespace Sys2Proof.Machine

/-- `zext_16(nnn)` (R103). -/
def addr16 (nnn : Addr12) : Word := nnn.setWidth 16

/-- `zext_16(b)` (R8). -/
def byte16 (b : Byte) : Word := b.setWidth 16

/-- A skip is taken exactly when the condition holds (spec/41_control.md R151). -/
def skipIf (cond : Bool) (s : State) : State := if cond then s.advancePc else s

/-- The address of the `k`-th byte of an `I`-based access, an unbounded sum (spec/20_memory.md R75). -/
def State.memAddr (s : State) (k : Nat) : Nat := s.i.toNat + k

/-- `V[k]`, `V[k+1]`, ... : `n` registers in increasing order (spec/44_keypad_timer_memory.md R314). -/
def State.readRegs (s : State) (k : Nat) : Nat → List Byte
  | 0 => []
  | n + 1 => s.readV (BitVec.ofNat 4 k) :: State.readRegs s (k + 1) n

/-- `V[k] <- b0`, `V[k+1] <- b1`, ... in increasing order (R316). -/
def State.writeRegs (s : State) (k : Nat) : List Byte → State
  | [] => s
  | b :: bs => State.writeRegs (s.writeV (BitVec.ofNat 4 k) b) (k + 1) bs

/-- The keys in increasing order, for the choice of the lowest one down (R292). -/
def allKeys : List Nibble := [0x0#4, 0x1#4, 0x2#4, 0x3#4, 0x4#4, 0x5#4, 0x6#4, 0x7#4, 0x8#4, 0x9#4, 0xA#4, 0xB#4, 0xC#4, 0xD#4, 0xE#4, 0xF#4]

/-- `min { k | keypad[k] == 1 }`, or none when no key is down (R292). -/
def State.lowestKeyDown (s : State) : Option Nibble := allKeys.find? (fun k => s.keyDown k)

end Sys2Proof.Machine
end

