-- ==== Sys2Proof/Machine/Flags.lean ====
section
/-!
DEFINITION. The 8-bit ALU and the flag logic (spec/42_load_alu.md R200, R210 to R219). Each operation of an instruction that
writes VF is a function from the operands to the result and the flag, so that both come from the values before the
instruction; `writeResultAndFlag` writes them in the one order R210 gives.
-/
namespace Sys2Proof.Machine

/-- A flag value as a byte: 1 or 0. -/
def flagByte (b : Bool) : Byte := if b then 0x01#8 else 0x00#8

/-- The result and the flag of `8xy4`: the sum mod 256, and 1 exactly when the 9-bit sum is above 255 (R211). -/
def addWithCarry (a b : Byte) : Byte × Byte :=
  (BitVec.ofNat 8 (a.toNat + b.toNat), flagByte (decide (a.toNat + b.toNat > 255)))

/-- The difference mod 256, and 1 exactly when the minuend is STRICTLY greater (R213, R217): at equality there is no borrow
and the flag is still 0. -/
def subStrict (a b : Byte) : Byte × Byte := (a - b, flagByte (decide (a.toNat > b.toNat)))

/-- The logical shift right by one and the old bit 0 (R215). -/
def shiftRight (a : Byte) : Byte × Byte := (a >>> 1, a &&& 0x01#8)

/-- The shift left by one and the old bit 7 (R219). -/
def shiftLeft (a : Byte) : Byte × Byte := (a <<< 1, (a >>> 7) &&& 0x01#8)

/-- `V[x] <- res`, then `V[0xF] <- flag`: the flag is written last, so with `x = 0xF` it is what VF holds (R210, C2, D28). -/
def writeResultAndFlag (x : Nibble) (rf : Byte × Byte) (s : State) : State := (s.writeV x rf.1).writeFlag rf.2

end Sys2Proof.Machine
end

