-- ==== Sys2Proof/Machine/Control.lean ====
section
/-!
DEFINITION. Control transfer, stack and skips (spec/41_control.md). Every meaning runs on the state in which `pc` already
holds the address of the instruction plus 2 (R38, spec/40_cycle.md R131). No transfer checks its target (R173).
-/
namespace Sys2Proof.Machine

/-- `0nnn`, SYS: no operation (R155). -/
def execSys (_nnn : Addr12) (s : State) : Host.Outcome State Fault Refusal := .next s

/-- `00EE`, RET (R157). -/
def execRet (s : State) : Host.Outcome State Fault Refusal :=
  if s.sp = 0x0#4 then raise (.stackUnderflow s.sp) else .next (s.writePc (s.stackAt s.sp)).pop

/-- `1nnn`, JP addr (R159). -/
def execJp (nnn : Addr12) (s : State) : Host.Outcome State Fault Refusal := .next (s.writePc (addr16 nnn))

/-- `2nnn`, CALL addr (R161): what is pushed is the advanced `pc`. -/
def execCall (nnn : Addr12) (s : State) : Host.Outcome State Fault Refusal :=
  if s.sp = 0xF#4 then raise (.stackOverflow s.sp) else .next ((s.push s.pc).writePc (addr16 nnn))

/-- `3xkk`, SE Vx, byte (R163). -/
def execSeImm (x : Nibble) (kk : Byte) (s : State) : Host.Outcome State Fault Refusal :=
  .next (skipIf (s.readV x == kk) s)

/-- `4xkk`, SNE Vx, byte (R165). -/
def execSneImm (x : Nibble) (kk : Byte) (s : State) : Host.Outcome State Fault Refusal :=
  .next (skipIf (s.readV x != kk) s)

/-- `5xy0`, SE Vx, Vy (R167). -/
def execSeReg (x y : Nibble) (s : State) : Host.Outcome State Fault Refusal :=
  .next (skipIf (s.readV x == s.readV y) s)

/-- `9xy0`, SNE Vx, Vy (R169). -/
def execSneReg (x y : Nibble) (s : State) : Host.Outcome State Fault Refusal :=
  .next (skipIf (s.readV x != s.readV y) s)

/-- `Bnnn`, JP V0, addr (R171): the register is always `V[0]`. -/
def execJpV0 (nnn : Addr12) (s : State) : Host.Outcome State Fault Refusal :=
  .next (s.writePc (addr16 nnn + byte16 (s.readV 0x0#4)))

end Sys2Proof.Machine
end

