-- ==== Sys2Proof/Machine/Draw.lean ====
section
/-!
DEFINITION. The display bitmap controller (spec/43_display.md): the pixel address, `00E0` and `Dxyn`.
-/
namespace Sys2Proof.Machine

/-! ## Pixels (R251) -/

/-- The byte of pixel (row, col): `row*8 + col div 8`. -/
def pixelByte (row : Fin 32) (col : Fin 64) : Fin 256 := ⟨row.val * 8 + col.val / 8, by omega⟩

/-- `Pixel(row, col)`: bit `col mod 8` of its byte (R251, D10). -/
def pixel (d : Display) (row : Fin 32) (col : Fin 64) : Bool := (d.get (pixelByte row col)).getLsbD (col.val % 8)

/-- A byte with its bit `k` set to `p`. -/
def setBit (b : Byte) (k : Nat) (p : Bool) : Byte :=
  if p then b ||| (0x01#8 <<< k) else b &&& ~~~(0x01#8 <<< k)

/-- `SetPixel(row, col, p)` (R251). -/
def setPixel (d : Display) (row : Fin 32) (col : Fin 64) (p : Bool) : Display :=
  d.set (pixelByte row col).val (setBit (d.get (pixelByte row col)) (col.val % 8) p) (pixelByte row col).isLt

/-- The display with every pixel off. -/
def blankDisplay : Display := Vector.replicate 256 0x00#8

/-! ## Drawing (R254 to R257) -/

/-- What a draw carries from pixel to pixel: the display so far and whether an on pixel was turned off. -/
structure Canvas where
  display : Display
  collision : Bool
  deriving DecidableEq, Repr

/-- One sprite bit that is 1: a pixel that is on is a collision, and the pixel is inverted (R255, R256). -/
def Canvas.flip (c : Canvas) (row : Fin 32) (col : Fin 64) : Canvas where
  display := setPixel c.display row col (!pixel c.display row col)
  collision := c.collision || pixel c.display row col

/-- The columns of a sprite row, left to right (R254). -/
def spriteCols : List Nat := [0, 1, 2, 3, 4, 5, 6, 7]

/-- One sprite byte over the columns listed: bit `7 - c` is column `x0 + c`, which wraps modulo 64 (R255, R257). -/
def drawCols (b : Byte) (row : Fin 32) (x0 : Nat) : List Nat → Canvas → Canvas
  | [], c => c
  | k :: ks, c => drawCols b row x0 ks (if b.getLsbD (7 - k) then c.flip row (Fin.ofNat 64 (x0 + k)) else c)

/-- The sprite bytes from row `r` on: row `y0 + r` wraps modulo 32 (R255, R257). -/
def drawRows (x0 y0 : Nat) (r : Nat) : List Byte → Canvas → Canvas
  | [], c => c
  | b :: bs, c => drawRows x0 y0 (r + 1) bs (drawCols b (Fin.ofNat 32 (y0 + r)) x0 spriteCols c)

/-- The canvas after the `n`-row sprite at `I` is drawn at (`V[x]`, `V[y]`); the coordinates are taken modulo the display
size (R255). -/
def drawSprite (x y n : Nibble) (s : State) : Canvas :=
  drawRows ((s.readV x).toNat % 64) ((s.readV y).toNat % 32) 0 (s.readBytes s.i.toNat n.toNat)
    { display := s.display, collision := false }

/-- The effect of `Dxyn` once the sprite is known to lie in memory: the display, then VF last (R255). -/
def drawAndFlag (x y n : Nibble) (s : State) : State :=
  (s.writeDisplay (drawSprite x y n s).display).writeFlag (flagByte (drawSprite x y n s).collision)

/-! ## The instructions -/

/-- `00E0`, CLS (R253). -/
def execCls (s : State) : Host.Outcome State Fault Refusal := .next (s.writeDisplay blankDisplay)

/-- `Dxyn`, DRW Vx, Vy, nibble (R255): `n = 0` reads nothing and is not checked. -/
def execDrw (x y n : Nibble) (s : State) : Host.Outcome State Fault Refusal :=
  if n = 0x0#4 then .next (drawAndFlag x y n s) else withRange s (n.toNat - 1) (.next (drawAndFlag x y n s))

end Sys2Proof.Machine
end

