-- ==== Sys2Proof/Machine/KeypadTimer.lean ====
section
/-!
DEFINITION. Keypad skips, timers and the key wait (spec/44_keypad_timer_memory.md R280 to R296).
-/
namespace Sys2Proof.Machine

/-- `Ex9E`, SKP Vx: skip if key `V[x]` is down (R281). -/
def execSkp (x : Nibble) (s : State) : Host.Outcome State Fault Refusal :=
  withIndex .key (s.readV x) (fun k => .next (skipIf (s.keyDown k) s))

/-- `ExA1`, SKNP Vx: skip if key `V[x]` is up (R283). -/
def execSknp (x : Nibble) (s : State) : Host.Outcome State Fault Refusal :=
  withIndex .key (s.readV x) (fun k => .next (skipIf (!s.keyDown k) s))

/-- `Fx07`, LD Vx, DT (R290). -/
def execLdVDt (x : Nibble) (s : State) : Host.Outcome State Fault Refusal := .next (s.writeV x s.dt)

/-- `Fx0A`, LD Vx, K: with no key down `pc` goes back to this instruction and the cycle is OK; otherwise the lowest key down
(R292, D13). -/
def execLdVK (x : Nibble) (s : State) : Host.Outcome State Fault Refusal :=
  match s.lowestKeyDown with
  | none => .next (s.writePc (s.pc - 2#16))
  | some k => .next (s.writeV x (k.setWidth 8))

/-- `Fx15`, LD DT, Vx (R294). -/
def execLdDtV (x : Nibble) (s : State) : Host.Outcome State Fault Refusal := .next (s.writeDt (s.readV x))

/-- `Fx18`, LD ST, Vx (R296). -/
def execLdStV (x : Nibble) (s : State) : Host.Outcome State Fault Refusal := .next (s.writeSt (s.readV x))

end Sys2Proof.Machine
end

