-- ==== Sys2Proof/Machine/LoadAlu.lean ====
section
/-!
DEFINITION. Register loads, the 8-bit ALU, `LD I` and `RND` (spec/42_load_alu.md). None of them writes `pc`, touches memory
or can raise an error.
-/
namespace Sys2Proof.Machine

/-- `6xkk`, LD Vx, byte (R201). -/
def execLdImm (x : Nibble) (kk : Byte) (s : State) : Host.Outcome State Fault Refusal := .next (s.writeV x kk)

/-- `7xkk`, ADD Vx, byte: mod 256, no flag (R203). -/
def execAddImm (x : Nibble) (kk : Byte) (s : State) : Host.Outcome State Fault Refusal :=
  .next (s.writeV x (s.readV x + kk))

/-- `8xy0`, LD Vx, Vy (R205). -/
def execLdReg (x y : Nibble) (s : State) : Host.Outcome State Fault Refusal := .next (s.writeV x (s.readV y))

/-- `8xy1`, OR Vx, Vy: no flag (R206). -/
def execOr (x y : Nibble) (s : State) : Host.Outcome State Fault Refusal := .next (s.writeV x (s.readV x ||| s.readV y))

/-- `8xy2`, AND Vx, Vy: no flag (R207). -/
def execAnd (x y : Nibble) (s : State) : Host.Outcome State Fault Refusal := .next (s.writeV x (s.readV x &&& s.readV y))

/-- `8xy3`, XOR Vx, Vy: no flag (R208). -/
def execXor (x y : Nibble) (s : State) : Host.Outcome State Fault Refusal := .next (s.writeV x (s.readV x ^^^ s.readV y))

/-- `8xy4`, ADD Vx, Vy: VF is the carry (R211). -/
def execAddReg (x y : Nibble) (s : State) : Host.Outcome State Fault Refusal :=
  .next (writeResultAndFlag x (addWithCarry (s.readV x) (s.readV y)) s)

/-- `8xy5`, SUB Vx, Vy: VF is `V[x] > V[y]` (R213). -/
def execSub (x y : Nibble) (s : State) : Host.Outcome State Fault Refusal :=
  .next (writeResultAndFlag x (subStrict (s.readV x) (s.readV y)) s)

/-- `8xy6`, SHR Vx: VF is the old bit 0; `y` is not used (R215). -/
def execShr (x _y : Nibble) (s : State) : Host.Outcome State Fault Refusal :=
  .next (writeResultAndFlag x (shiftRight (s.readV x)) s)

/-- `8xy7`, SUBN Vx, Vy: VF is `V[y] > V[x]` (R217). -/
def execSubn (x y : Nibble) (s : State) : Host.Outcome State Fault Refusal :=
  .next (writeResultAndFlag x (subStrict (s.readV y) (s.readV x)) s)

/-- `8xyE`, SHL Vx: VF is the old bit 7; `y` is not used (R219). -/
def execShl (x _y : Nibble) (s : State) : Host.Outcome State Fault Refusal :=
  .next (writeResultAndFlag x (shiftLeft (s.readV x)) s)

/-- `Annn`, LD I, addr: the value is not checked (R221). -/
def execLdI (nnn : Addr12) (s : State) : Host.Outcome State Fault Refusal := .next (s.writeI (addr16 nnn))

/-- The effect of `Cxkk` for the entropy byte `r`: one byte is consumed and `V[x] <- r & kk` (R223). -/
def randomMasked (r : Byte) (x : Nibble) (kk : Byte) (s : State) : State :=
  s.countEntropy.writeV x (r &&& kk)

/-- `Cxkk`, RND Vx, byte: the next byte of the entropy source, a free value (R223, R16, log entry 2). -/
def execRnd (x : Nibble) (kk : Byte) (s : State) : Host.Outcome State Fault Refusal :=
  .next (randomMasked (Config.entropy s.entropyCount) x kk s)

end Sys2Proof.Machine
end

