-- ==== Sys2Proof/Machine/Transfer.lean ====
section
/-!
DEFINITION. The memory address unit (spec/44_keypad_timer_memory.md R300 to R316): `I` arithmetic, the font address, decimal
digits, and the transfers between registers and memory. `I` is left unchanged by the transfers (D15).
-/
namespace Sys2Proof.Machine

/-- `Fx1E`, ADD I, Vx: mod 2^16, VF unchanged (R300). -/
def execAddIV (x : Nibble) (s : State) : Host.Outcome State Fault Refusal := .next (s.writeI (s.i + byte16 (s.readV x)))

/-- The address of the glyph of digit `d`: `FONT_BASE + 5 * d` (R304). -/
def glyphAddr (d : Nibble) : Word := Config.fontBase + BitVec.ofNat 16 (Config.glyphBytes * d.toNat)

/-- `Fx29`, LD F, Vx (R304). -/
def execLdFV (x : Nibble) (s : State) : Host.Outcome State Fault Refusal :=
  withIndex .font (s.readV x) (fun d => .next (s.writeI (glyphAddr d)))

/-- The decimal digits of a byte: hundreds, tens, ones (R310). -/
def decimalDigits (b : Byte) : List Byte :=
  [BitVec.ofNat 8 (b.toNat / 100), BitVec.ofNat 8 (b.toNat / 10 % 10), BitVec.ofNat 8 (b.toNat % 10)]

/-- `Fx33`, LD B, Vx (R310). -/
def execLdBV (x : Nibble) (s : State) : Host.Outcome State Fault Refusal :=
  withRange s 2 (.next (s.writeBytes (s.memAddr 0) (decimalDigits (s.readV x))))

/-- `Fx55`, LD [I], Vx: `V[0]` to `V[x]` (R314). -/
def execLdMemV (x : Nibble) (s : State) : Host.Outcome State Fault Refusal :=
  withRange s x.toNat (.next (s.writeBytes (s.memAddr 0) (s.readRegs 0 (x.toNat + 1))))

/-- `Fx65`, LD Vx, [I]: `V[0]` to `V[x]` (R316). -/
def execLdVMem (x : Nibble) (s : State) : Host.Outcome State Fault Refusal :=
  withRange s x.toNat (.next (s.writeRegs 0 (s.readBytes (s.memAddr 0) (x.toNat + 1))))

end Sys2Proof.Machine
end

