-- ==== Sys2Proof/Machine/Step.lean ====
section
/-!
DEFINITION. One instruction cycle (spec/40_cycle.md R130, R131): fetch, decode, advance `pc`, execute. The checks come in the
order of spec/60_exceptions.md R347.
-/
namespace Sys2Proof.Machine

/-- One cycle. A fault carries no state because it commits nothing (R136): the machine is still in `s`. -/
def step (s : State) : Host.Outcome State Fault Refusal :=
  match fetchWord s with
  | .error e => raise e
  | .ok w =>
    match decode w with
    | .unrecognized u => raise (.unrecognizedInstruction u)
    | .instr i => exec i s.advancePc

/-- `s` with the instruction whose bits are `w` stored at `pc`, high byte first, so that the next `step` fetches it. It stands
for the host's `LoadBytes` (R374). When `pc` is not fetchable there is no such place and the state is left as it is
(log entry 7). -/
def State.withFetchWord (s : State) (nbits w : Nat) : State :=
  if s.fetchable then s.writeBytes s.pc.toNat (bytesOfWord (wordOfTableBits nbits w)) else s

end Sys2Proof.Machine
end

