-- ==== Sys2Proof/Machine/Cycle.lean ====
section
/-!
DEFINITION. The instruction cycle as the host sees it (spec/40_cycle.md R131): the state after it and its status with the code
of spec/60_exceptions.md R341. It is `step` with the unchanged state put beside an error (R136).
-/
namespace Sys2Proof.Machine

/-- The status a cycle returns (spec/10_state.md R47). -/
inductive Status where
  /-- `OK` -/
  | ok
  /-- one of the four error kinds -/
  | error (e : Fault)
  /-- the model has no move; no cycle ends so, because every instruction has its meaning -/
  | refused (r : Refusal)
  deriving DecidableEq, Repr

/-- The state and the status that an outcome of a step means for a machine in state `s`: an error commits nothing (R136). -/
def cycleOf (s : State) : Host.Outcome State Fault Refusal → State × Status
  | .next t => (t, .ok)
  | .fault e => (s, .error e)
  | .refused r => (s, .refused r)

/-- `Cycle(s) -> (s', status)` (R131). -/
def cycle (s : State) : State × Status := cycleOf s (step s)

/-- The numeric code of an error kind (R341). -/
def errorCode : Fault → Byte
  | .unrecognizedInstruction _ => 1#8
  | .stackOverflow _ => 2#8
  | .stackUnderflow _ => 3#8
  | .outOfBounds _ _ => 4#8

/-- The 2-bit code of the `src` of an `OUT_OF_BOUNDS` (R341). -/
def sourceCode : AccessSource → BitVec 2
  | .fetch => 0#2
  | .memory => 1#2
  | .key => 2#2
  | .font => 3#2

/-- The numeric code of a status, where the spec gives one (R341). -/
def statusCode : Status → Option Byte
  | .ok => some 0
  | .error e => some (errorCode e)
  | .refused _ => none

end Sys2Proof.Machine
end

