-- ==== Sys2Proof/Machine/HostOps.lean ====
section
/-!
DEFINITION. What the host may do to the machine between two cycles (spec/60_exceptions.md R352 to R362,
spec/70_reset_and_hazards.md R370 to R375), and a session: any sequence of these operations and of cycles.
-/
namespace Sys2Proof.Machine

/-! ## The operations on the machine -/

/-- `Reset` (R370): every field of the spec's state at its reset value. The count of entropy bytes drawn is no field of the
spec's and goes on, so that the bytes after a reset are free of those before it (log entry 2). -/
def State.hostReset (s : State) : State := { State.reset with entropyCount := s.entropyCount }

/-- A timer decremented by one tick, clamped at 0 (R353). -/
def tickByte (b : Byte) : Byte := if b.toNat > 0 then b - 1#8 else b

/-- `TickDelay()` (R353). -/
def State.tickDelay (s : State) : State := s.writeDt (tickByte s.dt)

/-- `TickSound()` (R353). -/
def State.tickSound (s : State) : State := s.writeSt (tickByte s.st)

/-- `TimerTick()` (R353). -/
def State.timerTick (s : State) : State := s.tickDelay.tickSound

/-- `SetKey(k, v)` (R356). -/
def State.setKey (s : State) (k : Nibble) (down : Bool) : State :=
  { s with keypad := s.keypad.set k.toNat down k.isLt }

/-- `LoadBytes(addr, bytes)`, where it is allowed: `addr + len ≤ MEMORY_SIZE` (R374). -/
def State.loadBytes (s : State) (addr : Nat) (bytes : List Byte) : Option State :=
  if addr + bytes.length ≤ Config.memorySize then some (s.writeBytes addr bytes) else none

/-- `ReadDisplay`: the 256 bytes of the bitmap (R252). -/
def State.readDisplay (s : State) : List Byte := s.display.toList

/-- `SoundActive`: 1 while `ST ≠ 0` (R355). -/
def State.soundActive (s : State) : Bool := s.st != 0x00#8

/-! ## Sessions (R362, R373) -/

/-- The operations of the host table (R362). -/
inductive HostOp where
  | reset
  | loadBytes (addr : Nat) (bytes : List Byte)
  | setKey (k : Nibble) (down : Bool)
  | tickDelay
  | tickSound
  | readDisplay
  | step
  deriving DecidableEq, Repr

/-- What the core returns for an operation (R362, last column). -/
inductive Response where
  | nothing
  | display (bytes : List Byte)
  | status (st : Status)
  deriving DecidableEq, Repr

/-- A machine with what the host's permissions depend on: whether a cycle has been requested since the last `Reset`, one that
ended in an error included (log entry 5). -/
structure Session where
  machine : State
  cycled : Bool
  deriving DecidableEq, Repr

/-- The session right after `Reset`. -/
def Session.start : Session := { machine := State.reset, cycled := false }

/-- One operation of the host (R362). `LoadBytes` out of range or after the first cycle is refused by name (R374, U10, U17). -/
def Session.apply (x : Session) : HostOp → Host.Outcome (Session × Response) Fault Refusal
  | .reset => .next ({ machine := x.machine.hostReset, cycled := false }, .nothing)
  | .loadBytes addr bytes =>
    if x.cycled then .refused .loadAfterFirstCycle
    else
      match x.machine.loadBytes addr bytes with
      | none => .refused .loadOutOfRange
      | some s => .next ({ x with machine := s }, .nothing)
  | .setKey k down => .next ({ x with machine := x.machine.setKey k down }, .nothing)
  | .tickDelay => .next ({ x with machine := x.machine.tickDelay }, .nothing)
  | .tickSound => .next ({ x with machine := x.machine.tickSound }, .nothing)
  | .readDisplay => .next (x, .display x.machine.readDisplay)
  | .step => .next ({ machine := (cycle x.machine).1, cycled := true }, .status (cycle x.machine).2)

/-- A sequence of host operations, and what each returned. An error status of a cycle does not end it: what the host does
next is its own choice (R349); an operation that is refused ends it. -/
def Session.run (x : Session) : List HostOp → Host.Outcome (Session × List Response) Fault Refusal
  | [] => .next (x, [])
  | op :: ops =>
    match x.apply op with
    | .fault e => .fault e
    | .refused r => .refused r
    | .next (y, r) =>
      match y.run ops with
      | .fault e => .fault e
      | .refused r => .refused r
      | .next (z, rs) => .next (z, r :: rs)

end Sys2Proof.Machine
end

