-- ==== Sys2Proof/Safety.lean ====
section
/-!
DEFINITION. The terms the statements are made in: what a frame keeps, the invariant of the machine, when an instruction raises
an error, what a program cannot observe, and what a sprite covers.
-/
namespace Sys2Proof.Machine

/-! ## Frames -/

/-- The parts of the state a frame speaks of: the fields of R30 and the model's own count of entropy bytes. -/
inductive Part where
  | regs | index | pc | sp | stack | delay | sound | keypad | display | memory | entropy
  deriving DecidableEq, Repr

/-- Two states agree on a part: registers, stack entries, keys and pixel bytes one by one, memory through the read of each
byte. -/
def Part.same (p : Part) (s t : State) : Prop :=
  match p with
  | .regs => ∀ y : Nibble, t.readV y = s.readV y
  | .index => t.i = s.i
  | .pc => t.pc = s.pc
  | .sp => t.sp = s.sp
  | .stack => ∀ j : Nibble, t.stackAt j = s.stackAt j
  | .delay => t.dt = s.dt
  | .sound => t.st = s.st
  | .keypad => ∀ k : Nibble, t.keyDown k = s.keyDown k
  | .display => ∀ b : Fin 256, t.display.get b = s.display.get b
  | .memory => ∀ a : Nat, t.readByte a = s.readByte a
  | .entropy => t.entropyCount = s.entropyCount

/-- `t` agrees with `s` on every part but those listed. -/
def KeepsAllBut (parts : List Part) (s t : State) : Prop := ∀ p : Part, p ∉ parts → p.same s t

/-- Every register but those listed is unchanged. -/
def KeepsRegsBut (xs : List Nibble) (s t : State) : Prop := ∀ y : Nibble, y ∉ xs → t.readV y = s.readV y

/-- Every byte of memory outside the `n` bytes from `a` is unchanged. -/
def KeepsMemoryOutside (a n : Nat) (s t : State) : Prop :=
  ∀ b : Nat, (b < a ∨ a + n ≤ b) → t.readByte b = s.readByte b

/-! ## The invariant -/

/-- The memory is canonical; `stack[0]` holds its reset value (R42); `pc` and the stack entries stay in the range R39 gives
(every pushed address is a fetchable `pc` plus 2). -/
def Inv (s : State) : Prop :=
  Memory.wf s.mem = true ∧ s.stackAt 0x0#4 = 0x0000#16 ∧ s.pc.toNat ≤ 0x10FE ∧ ∀ j : Nibble, (s.stackAt j).toNat ≤ 0x1000

/-! ## Errors -/

/-- The error an instruction of its own raises on the state in which its handler runs, if any (spec/60_exceptions.md R341,
last column, R343 to R345). -/
def ownError (i : Instr) (s : State) : Option Fault :=
  match i with
  | .ret => if s.sp = 0#4 then some (.stackUnderflow 0#4) else none
  | .call _ => if s.sp = 15#4 then some (.stackOverflow 15#4) else none
  | .drw _ _ n => if 0 < n.toNat ∧ 0xFFF < s.i.toNat + (n.toNat - 1) then some (.outOfBounds .memory s.i) else none
  | .ldBV _ => if 0xFFF < s.i.toNat + 2 then some (.outOfBounds .memory s.i) else none
  | .ldMemV x | .ldVMem x => if 0xFFF < s.i.toNat + x.toNat then some (.outOfBounds .memory s.i) else none
  | .skp x | .sknp x =>
    if 0xF < (s.readV x).toNat then some (.outOfBounds .key ((s.readV x).setWidth 16)) else none
  | .ldFV x => if 0xF < (s.readV x).toNat then some (.outOfBounds .font ((s.readV x).setWidth 16)) else none
  | .sys _ | .cls | .jp _ | .seImm _ _ | .sneImm _ _ | .seReg _ _ | .ldImm _ _ | .addImm _ _ => none
  | .ldReg _ _ | .orReg _ _ | .andReg _ _ | .xorReg _ _ | .addReg _ _ | .sub _ _ | .shr _ _ => none
  | .subn _ _ | .shl _ _ | .sneReg _ _ | .ldI _ | .jpV0 _ | .rnd _ _ => none
  | .ldVDt _ | .ldVK _ | .ldDtV _ | .ldStV _ | .addIV _ => none

/-! ## What a program cannot observe (spec/10_state.md R49) -/

/-- Two states that differ at most in the stack entries no program can observe: `stack[0]` and those above `sp`. Their
`entropyCount` is equal too, so the next RND draws the same byte in both, the model's choice (log entry 2). -/
def ObsEq (s t : State) : Prop :=
  KeepsAllBut [.stack, .memory] s t ∧ t.mem = s.mem ∧
    ∀ j : Nibble, 0 < j.toNat → j.toNat ≤ s.sp.toNat → t.stackAt j = s.stackAt j

/-- Two outcomes that a program cannot tell apart. -/
def ObsEqOutcome : Host.Outcome State Fault Refusal → Host.Outcome State Fault Refusal → Prop
  | .next s, .next t => ObsEq s t
  | .fault e, .fault f => e = f
  | .refused q, .refused r => q = r
  | _, _ => False

/-! ## What a sprite covers (spec/43_display.md R254, R257) -/

/-- Some bit of the `n`-row sprite at `I` that is 1 lies on pixel (row, col) when the sprite is drawn at (`V[x]`, `V[y]`):
bit `7 - c` of byte `r` covers row `(y0 + r) mod 32`, column `(x0 + c) mod 64`. -/
def SpriteCovers (x y n : Nibble) (s : State) (row : Fin 32) (col : Fin 64) : Prop :=
  ∃ r c : Nat, r < n.toNat ∧ c < 8 ∧ (s.readByte (s.i.toNat + r)).getLsbD (7 - c) = true ∧
    row.val = ((s.readV y).toNat % 32 + r) % 32 ∧ col.val = ((s.readV x).toNat % 64 + c) % 64

/-- The pixel (row, col) of the machine's display (R251). -/
def State.pixel (s : State) (row : Fin 32) (col : Fin 64) : Bool :=
  (s.display.get (pixelByte row col)).getLsbD (col.val % 8)

/-! ## Calls -/

/-- `n` CALLs to `nnn`, one after the other, each run as `exec` runs it. -/
def nestedCalls (nnn : Addr12) : Nat → State → Host.Outcome State Fault Refusal
  | 0, s => .next s
  | n + 1, s =>
    match exec (.call nnn) s with
    | .next t => nestedCalls nnn n t
    | .fault e => .fault e
    | .refused r => .refused r

end Sys2Proof.Machine
end

