-- ==== Sys2Proof/Certificates/Slice0/Obligations.lean ====
section
/-!
DEFINITION. The statements about the machine. Every statement about an instruction speaks of `exec` on the state `t` of
spec/40_cycle.md R131, in which `pc` already holds the address of the instruction plus 2; `StepRunsTheDecodedInstruction`
ties it to `step`. A result statement says which word decodes to the instruction, that `exec` answers a next state, what that
state holds, and that everything else is as before (its frame, `KeepsAllBut` and `KeepsRegsBut` of Sys2Proof/Safety.lean).
-/
open Sys2Proof Sys2Proof.Machine

/-! ## Encoding -/

/-- Decoding an encoded well-formed instruction gives it back, every operand at every value, from a word and from the bytes at the
head of any list (R100 to R105). -/
def Obligations.DecodeOfEncodeIsTheInstruction : Prop :=
  ∀ i : Instr, i.wellFormed = true →
    decode (encode i) = .instr i ∧ ∀ rest : List Byte, decodeBytes (encodeBytes i ++ rest) = .ok (i, rest)

/-- What decodes is well formed and encodes to the same word: every recognized word has one meaning. -/
def Obligations.EncodeOfDecodeIsTheWord : Prop :=
  ∀ (w : Word) (i : Instr), decode w = .instr i → i.wellFormed = true ∧ encode i = w

/-- The decoder follows the rows of spec/opcode_table.json: a decoded instruction's word matches its row, and a word that matches a
row under its mask decodes to that row, except that 0x00E0 and 0x00EE are not SYS. -/
def Obligations.DecoderFollowsTheOpcodeTable : Prop :=
  (∀ (w : Word) (i : Instr), decode w = .instr i → w &&& i.row.1 = i.row.2) ∧
  (∀ (w : Word) (k : Instr), w &&& k.row.1 = k.row.2 → (opField w = 0x0#4 → k.row.1 = 0xF000#16 → w ≠ 0x00E0#16 ∧ w ≠ 0x00EE#16) →
    ∃ i, decode w = .instr i ∧ i.row = k.row)

/-- The unrecognized words are the ones R107's table names, family by family, and a cycle that fetches one ends in
UNRECOGNIZED_INSTRUCTION with the word and commits nothing. R107 marks its list as derived from R104 and R106. -/
def Obligations.UnrecognizedWordsAreTheListedOnes : Prop :=
  (∀ w : Word, decode w = .unrecognized w ↔
    (opField w = 0x5#4 ∧ nField w ≠ 0x0#4) ∨
    (opField w = 0x8#4 ∧ nField w ∈ [0x8#4, 0x9#4, 0xA#4, 0xB#4, 0xC#4, 0xD#4, 0xF#4]) ∨
    (opField w = 0x9#4 ∧ nField w ≠ 0x0#4) ∨
    (opField w = 0xE#4 ∧ kkField w ∉ [0x9E#8, 0xA1#8]) ∨
    (opField w = 0xF#4 ∧ kkField w ∉ [0x07#8, 0x0A#8, 0x15#8, 0x18#8, 0x1E#8, 0x29#8, 0x33#8, 0x55#8, 0x65#8])) ∧
  (∀ w u : Word, decode w = .unrecognized u → u = w) ∧
  (∀ s : State, s.fetchable = true → decode s.wordAtPc = .unrecognized s.wordAtPc →
    step s = .fault (.unrecognizedInstruction s.wordAtPc) ∧
      cycle s = (s, .error (.unrecognizedInstruction s.wordAtPc)))

/-- One word of every family, written out from the opcode map of R104 and the test vectors, decodes to its instruction. -/
def Obligations.SampleWordsDecode : Prop :=
  decode 0x0123#16 = .instr (.sys 0x123#12) ∧ decode 0x1234#16 = .instr (.jp 0x234#12) ∧ decode 0x220E#16 = .instr (.call 0x20E#12) ∧
  decode 0x3A05#16 = .instr (.seImm 0xA#4 0x05#8) ∧ decode 0x4000#16 = .instr (.sneImm 0x0#4 0x00#8) ∧
  decode 0x5120#16 = .instr (.seReg 0x1#4 0x2#4) ∧ decode 0x6A05#16 = .instr (.ldImm 0xA#4 0x05#8) ∧
  decode 0x70FF#16 = .instr (.addImm 0x0#4 0xFF#8) ∧ decode 0x8347#16 = .instr (.subn 0x3#4 0x4#4) ∧
  decode 0x9120#16 = .instr (.sneReg 0x1#4 0x2#4) ∧ decode 0xA300#16 = .instr (.ldI 0x300#12) ∧
  decode 0xB300#16 = .instr (.jpV0 0x300#12) ∧ decode 0xC30F#16 = .instr (.rnd 0x3#4 0x0F#8) ∧
  decode 0xD011#16 = .instr (.drw 0x0#4 0x1#4 0x1#4) ∧ decode 0xE29E#16 = .instr (.skp 0x2#4) ∧ decode 0xF255#16 = .instr (.ldMemV 0x2#4) ∧
  decode 0x5121#16 = .unrecognized 0x5121#16 ∧ decode 0xF066#16 = .unrecognized 0xF066#16

/-! ## The cycle -/

/-- Where `pc` is fetchable and the two bytes there, high byte first, decode to `i`, the instruction is well formed, `step` is
`exec i` on the state whose `pc`, and nothing else, is advanced by 2 (mod 2^16), and the advance is kept only with the whole
cycle: on an error `pc` is what it was (R133). -/
def Obligations.StepRunsTheDecodedInstruction : Prop :=
  ∀ (s : State) (i : Instr), s.pc.toNat ≤ 0xFFE →
    decode (s.readByte s.pc.toNat ++ s.readByte (s.pc.toNat + 1) : Word) = .instr i →
      i.wellFormed = true ∧ step s = exec i s.advancePc ∧ s.advancePc.pc = s.pc + 2#16 ∧ KeepsAllBut [.pc] s s.advancePc ∧
      (∀ e, step s = .fault e → (cycle s).1.pc = s.pc)

/-- The cycle is the pseudocode of R131, case by case: the fetch bound, the decoder, and the handler's two outcomes. -/
def Obligations.CycleFollowsThePseudocode : Prop :=
  ∀ s : State,
    (0xFFE < s.pc.toNat → cycle s = (s, .error (.outOfBounds .fetch s.pc))) ∧
    (s.pc.toNat ≤ 0xFFE →
      (∀ u, decode (s.readByte s.pc.toNat ++ s.readByte (s.pc.toNat + 1) : Word) = .unrecognized u →
        cycle s = (s, .error (.unrecognizedInstruction u))) ∧
      (∀ i, decode (s.readByte s.pc.toNat ++ s.readByte (s.pc.toNat + 1) : Word) = .instr i →
        (∀ t, exec i (s.writePc (s.pc + 2#16)) = .next t → cycle s = (t, .ok)) ∧
        (∀ e, exec i (s.writePc (s.pc + 2#16)) = .fault e → cycle s = (s, .error e))))

/-- Fetch answers the big-endian word at every `pc` up to 0xFFE, odd or even, and OUT_OF_BOUNDS(FETCH, pc) above, with nothing
written (R72, R132). -/
def Obligations.FetchBoundIsReported : Prop :=
  ∀ s : State,
    (s.pc.toNat ≤ 0xFFE → fetchWord s = .ok (s.readByte s.pc.toNat ++ s.readByte (s.pc.toNat + 1) : Word)) ∧
    (0xFFE < s.pc.toNat → step s = .fault (.outOfBounds .fetch s.pc) ∧ (cycle s).1 = s)

/-- Every cycle either commits a next state with status OK or reports one error and commits nothing; no cycle is refused; and an
error repeats if the host asks for another cycle on the unchanged state. That an error commits nothing is the spec's decision
D2 (log entry 3). -/
def Obligations.EveryCycleCommitsOrReportsOneError : Prop :=
  ∀ s : State,
    ((∃ t, step s = .next t ∧ cycle s = (t, .ok)) ∨ (∃ e, step s = .fault e ∧ cycle s = (s, .error e))) ∧
    ((cycle s).2 ≠ .ok → cycle (cycle s).1 = cycle s)

/-- An instruction raises exactly the error that R343 to R345 give it, on exactly the states they name (`ownError`): RET on the
empty stack, CALL at sp = 15, DRW, LD_B_V, LD_MEM_V and LD_V_MEM past the end of memory, SKP and SKNP with a key number and
LD_F_V with a digit above 15. The KEY and FONT cases are the spec's decision D12. -/
def Obligations.InstructionErrorsAreTheListedOnes : Prop :=
  ∀ (i : Instr) (s : State) (e : Fault), exec i s = .fault e ↔ ownError i s = some e

/-- Every one of the 35 instructions completes: on every state in which it has no error of its own, `exec` answers a next
state. Only RET, CALL, DRW, SKP, SKNP, LD_F_V, LD_B_V, LD_MEM_V and LD_V_MEM have one. -/
def Obligations.EveryInstructionCompletes : Prop :=
  ∀ (i : Instr) (s : State), ownError i s = none → ∃ t, exec i s = .next t

/-! ## Control transfer, stack and skips -/

/-- `0nnn` does nothing, for every word of family 0 but the two exact ones (R155). -/
def Obligations.SysIsNoOperation : Prop :=
  (∀ nnn : Addr12, nnn ≠ 0x0E0#12 → nnn ≠ 0x0EE#12 → decode (wordNNN 0x0#4 nnn) = .instr (.sys nnn)) ∧
  (∀ (nnn : Addr12) (s : State), exec (.sys nnn) s = .next s)

/-- RET: `pc` takes the top of the stack, unchecked, `sp` goes down by one, and the popped entry keeps its value; with the stack
empty it is STACK_UNDERFLOW(0) (R157, R345). -/
def Obligations.RetPopsTheReturnAddress : Prop :=
  decode 0x00EE#16 = .instr .ret ∧
  ∀ s : State,
    (s.sp ≠ 0x0#4 → ∃ t, exec .ret s = .next t ∧ t.pc = s.stackAt s.sp ∧ t.sp.toNat + 1 = s.sp.toNat ∧
      KeepsAllBut [.pc, .sp] s t) ∧
    (s.sp = 0x0#4 → exec .ret s = .fault (.stackUnderflow 0x0#4))

/-- JP: `pc` is the zero-extended `nnn`, odd or not, 0xFFF included (R159). -/
def Obligations.JpJumpsToTheAddress : Prop :=
  ∀ (nnn : Addr12) (s : State), decode (wordNNN 0x1#4 nnn) = .instr (.jp nnn) ∧
    ∃ t, exec (.jp nnn) s = .next t ∧ t.pc.toNat = nnn.toNat ∧ KeepsAllBut [.pc] s t

/-- CALL: `sp` goes up by one, the new top holds the `pc` the handler ran with (the address of the CALL plus 2), no other entry
changes, and `pc` is `nnn`; at sp = 15 it is STACK_OVERFLOW(15) (R161, R344). -/
def Obligations.CallPushesAndJumps : Prop :=
  ∀ (nnn : Addr12) (s : State), decode (wordNNN 0x2#4 nnn) = .instr (.call nnn) ∧
    (s.sp ≠ 0xF#4 → ∃ t, exec (.call nnn) s = .next t ∧ t.sp.toNat = s.sp.toNat + 1 ∧ t.stackAt t.sp = s.pc ∧
      (∀ j : Nibble, j ≠ t.sp → t.stackAt j = s.stackAt j) ∧ t.pc.toNat = nnn.toNat ∧
      KeepsAllBut [.pc, .sp, .stack] s t) ∧
    (s.sp = 0xF#4 → exec (.call nnn) s = .fault (.stackOverflow 0xF#4))

/-- A RET that runs after a CALL, with whatever `pc` the fetch of the RET left, goes back to the instruction after the CALL, and
leaves the stack pointer and the parts a call does not touch as they were. -/
def Obligations.RetAfterCallReturns : Prop :=
  ∀ (nnn : Addr12) (s t : State) (p : Word), exec (.call nnn) s = .next t →
    ∃ u, exec .ret (t.writePc p) = .next u ∧ u.pc = s.pc ∧ u.sp = s.sp ∧ KeepsAllBut [.stack] s u

/-- From the empty stack 15 nested calls succeed, `sp` counting them, and the 16th is STACK_OVERFLOW(15); `stack[0]` is never
written. Conflict C1 settles the count. -/
def Obligations.FifteenNestedCallsThenOverflow : Prop :=
  ∀ (nnn : Addr12) (s : State), s.sp = 0x0#4 →
    (∀ n : Nat, n ≤ 15 → ∃ t, nestedCalls nnn n s = .next t ∧ t.sp.toNat = n ∧ t.stackAt 0x0#4 = s.stackAt 0x0#4) ∧
    nestedCalls nnn 16 s = .fault (.stackOverflow 0xF#4)

/-- SE Vx, byte and SNE Vx, byte: `pc` goes on by 2 exactly when the register equals, or differs from, `kk`; nothing else
changes (R163, R165). -/
def Obligations.ImmediateSkipsCompareWithTheByte : Prop :=
  ∀ (x : Nibble) (kk : Byte) (s : State),
    decode (wordXKK 0x3#4 x kk) = .instr (.seImm x kk) ∧ decode (wordXKK 0x4#4 x kk) = .instr (.sneImm x kk) ∧
    (∃ t, exec (.seImm x kk) s = .next t ∧ (s.readV x = kk → t.pc = s.pc + 2#16) ∧ (s.readV x ≠ kk → t.pc = s.pc) ∧
      KeepsAllBut [.pc] s t) ∧
    (∃ t, exec (.sneImm x kk) s = .next t ∧ (s.readV x ≠ kk → t.pc = s.pc + 2#16) ∧ (s.readV x = kk → t.pc = s.pc) ∧
      KeepsAllBut [.pc] s t)

/-- SE Vx, Vy and SNE Vx, Vy: `pc` goes on by 2 exactly when the registers are equal, or differ; nothing else changes; with
x = y the one always skips and the other never does; a non-zero fixed nibble is unrecognized (R167, R169). -/
def Obligations.RegisterSkipsCompareTheRegisters : Prop :=
  (∀ (x y : Nibble) (s : State),
    decode (wordXYN 0x5#4 x y 0x0#4) = .instr (.seReg x y) ∧ decode (wordXYN 0x9#4 x y 0x0#4) = .instr (.sneReg x y) ∧
    (∃ t, exec (.seReg x y) s = .next t ∧ (s.readV x = s.readV y → t.pc = s.pc + 2#16) ∧
      (s.readV x ≠ s.readV y → t.pc = s.pc) ∧ KeepsAllBut [.pc] s t) ∧
    (∃ t, exec (.sneReg x y) s = .next t ∧ (s.readV x ≠ s.readV y → t.pc = s.pc + 2#16) ∧
      (s.readV x = s.readV y → t.pc = s.pc) ∧ KeepsAllBut [.pc] s t)) ∧
  (∀ x y n : Nibble, n ≠ 0x0#4 → decode (wordXYN 0x5#4 x y n) = .unrecognized (wordXYN 0x5#4 x y n) ∧
    decode (wordXYN 0x9#4 x y n) = .unrecognized (wordXYN 0x9#4 x y n))

/-- JP V0, addr: `pc` is the exact sum of `nnn` and `V[0]`, at most 0x10FE, whatever the x nibble of `nnn` (R171). -/
def Obligations.JpV0JumpsToTheSum : Prop :=
  ∀ (nnn : Addr12) (s : State), decode (wordNNN 0xB#4 nnn) = .instr (.jpV0 nnn) ∧
    ∃ t, exec (.jpV0 nnn) s = .next t ∧ t.pc.toNat = nnn.toNat + (s.readV 0x0#4).toNat ∧ t.pc.toNat ≤ 0x10FE ∧
      KeepsAllBut [.pc] s t

/-- No transfer checks its target: JP, CALL and JP V0 to an address above 0xFFE, and a RET that pops one, complete, and the next cycle
reports OUT_OF_BOUNDS(FETCH, target); a zero word only advances `pc`, so zeroed memory runs until that error. The spec's decision
D6, and what it derives from R132 under R155 and R159. -/
def Obligations.UnfetchableTargetsAreReportedByTheNextFetch : Prop :=
  ∀ s : State,
    (∃ t, exec (.jp 0xFFF#12) s = .next t ∧ step t = .fault (.outOfBounds .fetch 0x0FFF#16)) ∧
    (s.sp ≠ 0xF#4 → ∃ t, exec (.call 0xFFF#12) s = .next t ∧ step t = .fault (.outOfBounds .fetch 0x0FFF#16)) ∧
    (∀ nnn : Addr12, 0xFFE < nnn.toNat + (s.readV 0x0#4).toNat → ∃ t, exec (.jpV0 nnn) s = .next t ∧
      ∃ w : Word, w.toNat = nnn.toNat + (s.readV 0x0#4).toNat ∧ step t = .fault (.outOfBounds .fetch w)) ∧
    (s.sp ≠ 0x0#4 → 0xFFE < (s.stackAt s.sp).toNat → ∃ t, exec .ret s = .next t ∧
      step t = .fault (.outOfBounds .fetch (s.stackAt s.sp))) ∧
    (s.fetchable = true → s.wordAtPc = 0x0000#16 → ∃ t, step s = .next t ∧ t.pc = s.pc + 2#16 ∧ KeepsAllBut [.pc] s t ∧
      (0xFFC < s.pc.toNat → step t = .fault (.outOfBounds .fetch t.pc)))

/-! ## Register loads and the ALU -/

/-- LD Vx, byte; ADD Vx, byte (mod 256, VF written only as the destination); LD Vx, Vy: the destination register's new value,
and nothing else changes (R201, R203, R205). -/
def Obligations.LoadsAndImmediateAddWriteOneRegister : Prop :=
  (∀ (x : Nibble) (kk : Byte) (s : State), decode (wordXKK 0x6#4 x kk) = .instr (.ldImm x kk) ∧
    ∃ t, exec (.ldImm x kk) s = .next t ∧ t.readV x = kk ∧ KeepsRegsBut [x] s t ∧ KeepsAllBut [.regs] s t) ∧
  (∀ (x : Nibble) (kk : Byte) (s : State), decode (wordXKK 0x7#4 x kk) = .instr (.addImm x kk) ∧
    ∃ t, exec (.addImm x kk) s = .next t ∧ (t.readV x).toNat = ((s.readV x).toNat + kk.toNat) % 256 ∧
      KeepsRegsBut [x] s t ∧ KeepsAllBut [.regs] s t) ∧
  (∀ (x y : Nibble) (s : State), decode (wordXYN 0x8#4 x y 0x0#4) = .instr (.ldReg x y) ∧
    ∃ t, exec (.ldReg x y) s = .next t ∧ t.readV x = s.readV y ∧ KeepsRegsBut [x] s t ∧ KeepsAllBut [.regs] s t)

/-- OR, AND and XOR, bit by bit from the values before the instruction; VF changes only as the destination (R206 to R208). -/
def Obligations.LogicWorksBitByBit : Prop :=
  ∀ (x y : Nibble) (s : State),
    decode (wordXYN 0x8#4 x y 0x1#4) = .instr (.orReg x y) ∧ decode (wordXYN 0x8#4 x y 0x2#4) = .instr (.andReg x y) ∧
    decode (wordXYN 0x8#4 x y 0x3#4) = .instr (.xorReg x y) ∧
    (∃ t, exec (.orReg x y) s = .next t ∧ KeepsRegsBut [x] s t ∧ KeepsAllBut [.regs] s t ∧
      ∀ k : Nat, k < 8 → (t.readV x).getLsbD k = ((s.readV x).getLsbD k || (s.readV y).getLsbD k)) ∧
    (∃ t, exec (.andReg x y) s = .next t ∧ KeepsRegsBut [x] s t ∧ KeepsAllBut [.regs] s t ∧
      ∀ k : Nat, k < 8 → (t.readV x).getLsbD k = ((s.readV x).getLsbD k && (s.readV y).getLsbD k)) ∧
    (∃ t, exec (.xorReg x y) s = .next t ∧ KeepsRegsBut [x] s t ∧ KeepsAllBut [.regs] s t ∧
      ∀ k : Nat, k < 8 → (t.readV x).getLsbD k = ((s.readV x).getLsbD k ^^ (s.readV y).getLsbD k))

/-- ADD Vx, Vy: the sum mod 256 goes to `V[x]` unless that is VF, and VF ends as the carry of the old values, whatever x and y
are (R211). -/
def Obligations.AddRegWritesSumAndCarry : Prop :=
  ∀ (x y : Nibble) (s : State), decode (wordXYN 0x8#4 x y 0x4#4) = .instr (.addReg x y) ∧
    ∃ t, exec (.addReg x y) s = .next t ∧
      (x ≠ 0xF#4 → (t.readV x).toNat = ((s.readV x).toNat + (s.readV y).toNat) % 256) ∧
      (255 < (s.readV x).toNat + (s.readV y).toNat → t.readV 0xF#4 = 0x01#8) ∧
      ((s.readV x).toNat + (s.readV y).toNat ≤ 255 → t.readV 0xF#4 = 0x00#8) ∧
      KeepsRegsBut [x, 0xF#4] s t ∧ KeepsAllBut [.regs] s t

/-- SUB Vx, Vy: `V[x] - V[y]` mod 256 goes to `V[x]` unless that is VF, and VF ends as 1 exactly when the old `V[x]` is strictly
greater than the old `V[y]` (R213). -/
def Obligations.SubWritesDifferenceAndStrictFlag : Prop :=
  ∀ (x y : Nibble) (s : State), decode (wordXYN 0x8#4 x y 0x5#4) = .instr (.sub x y) ∧
    ∃ t, exec (.sub x y) s = .next t ∧
      (x ≠ 0xF#4 → ((t.readV x).toNat : Int) = ((s.readV x).toNat - (s.readV y).toNat : Int) % 256) ∧
      ((s.readV y).toNat < (s.readV x).toNat → t.readV 0xF#4 = 0x01#8) ∧
      ((s.readV x).toNat ≤ (s.readV y).toNat → t.readV 0xF#4 = 0x00#8) ∧
      KeepsRegsBut [x, 0xF#4] s t ∧ KeepsAllBut [.regs] s t

/-- SHR Vx: half of the old `V[x]`, rounded down, goes to `V[x]` unless that is VF, and VF ends as the old bit 0; `V[y]` is not
used (R215). -/
def Obligations.ShrWritesHalfAndTheBitShiftedOut : Prop :=
  ∀ (x y : Nibble) (s : State), decode (wordXYN 0x8#4 x y 0x6#4) = .instr (.shr x y) ∧
    ∃ t, exec (.shr x y) s = .next t ∧ (x ≠ 0xF#4 → (t.readV x).toNat = (s.readV x).toNat / 2) ∧
      (t.readV 0xF#4).toNat = (s.readV x).toNat % 2 ∧ KeepsRegsBut [x, 0xF#4] s t ∧ KeepsAllBut [.regs] s t

/-- SUBN Vx, Vy: `V[y] - V[x]` mod 256 goes to `V[x]` unless that is VF, and VF ends as 1 exactly when the old `V[y]` is strictly
greater than the old `V[x]` (R217). -/
def Obligations.SubnWritesDifferenceAndStrictFlag : Prop :=
  ∀ (x y : Nibble) (s : State), decode (wordXYN 0x8#4 x y 0x7#4) = .instr (.subn x y) ∧
    ∃ t, exec (.subn x y) s = .next t ∧
      (x ≠ 0xF#4 → ((t.readV x).toNat : Int) = ((s.readV y).toNat - (s.readV x).toNat : Int) % 256) ∧
      ((s.readV x).toNat < (s.readV y).toNat → t.readV 0xF#4 = 0x01#8) ∧
      ((s.readV y).toNat ≤ (s.readV x).toNat → t.readV 0xF#4 = 0x00#8) ∧
      KeepsRegsBut [x, 0xF#4] s t ∧ KeepsAllBut [.regs] s t

/-- SHL Vx: twice the old `V[x]` mod 256 goes to `V[x]` unless that is VF, and VF ends as the old bit 7; `V[y]` is not used
(R219). -/
def Obligations.ShlWritesDoubleAndTheBitShiftedOut : Prop :=
  ∀ (x y : Nibble) (s : State), decode (wordXYN 0x8#4 x y 0xE#4) = .instr (.shl x y) ∧
    ∃ t, exec (.shl x y) s = .next t ∧ (x ≠ 0xF#4 → (t.readV x).toNat = 2 * (s.readV x).toNat % 256) ∧
      (t.readV 0xF#4).toNat = (s.readV x).toNat / 128 ∧ KeepsRegsBut [x, 0xF#4] s t ∧ KeepsAllBut [.regs] s t

/-- LD I, addr: `I` is the zero-extended `nnn` (R221). -/
def Obligations.LdILoadsTheAddress : Prop :=
  ∀ (nnn : Addr12) (s : State), decode (wordNNN 0xA#4 nnn) = .instr (.ldI nnn) ∧
    ∃ t, exec (.ldI nnn) s = .next t ∧ t.i.toNat = nnn.toNat ∧ KeepsAllBut [.index] s t

/-- RND Vx, byte: `V[x]` is the next entropy byte masked with `kk`, one byte is consumed whatever `kk` is, and kk = 0 writes 0. The
byte is the free value `Config.entropy` (R223, log entry 2): the statement holds for every value of it. -/
def Obligations.RndMasksOneEntropyByte : Prop :=
  ∀ (x : Nibble) (kk : Byte) (s : State), decode (wordXKK 0xC#4 x kk) = .instr (.rnd x kk) ∧
    ∃ t, exec (.rnd x kk) s = .next t ∧ t.readV x = Config.entropy s.entropyCount &&& kk ∧
      (kk = 0x00#8 → t.readV x = 0x00#8) ∧ t.entropyCount = s.entropyCount + 1 ∧
      KeepsRegsBut [x] s t ∧ KeepsAllBut [.regs, .entropy] s t

/-! ## Display -/

/-- CLS: every byte of the bitmap is 0 and nothing else changes (R253). -/
def Obligations.ClsClearsTheDisplay : Prop :=
  decode 0x00E0#16 = .instr .cls ∧
  ∀ s : State, ∃ t, exec .cls s = .next t ∧ (∀ b : Fin 256, t.display.get b = 0x00#8) ∧ KeepsAllBut [.display] s t

/-- DRW, stated without its loops: a pixel is inverted exactly when some set bit of the sprite covers it, VF ends as 1 exactly when
some covered pixel was on and as 0 otherwise, and nothing else changes, for every x, y and n, x or y = 0xF among them. The
semantics is the spec's general-knowledge content (D11, log entry 8). -/
def Obligations.DrwInvertsExactlyTheCoveredPixels : Prop :=
  ∀ (x y n : Nibble) (s : State), (n = 0x0#4 ∨ s.i.toNat + (n.toNat - 1) ≤ 0xFFF) →
    ∃ t, exec (.drw x y n) s = .next t ∧
      (∀ (row : Fin 32) (col : Fin 64), SpriteCovers x y n s row col → t.pixel row col = !s.pixel row col) ∧
      (∀ (row : Fin 32) (col : Fin 64), ¬ SpriteCovers x y n s row col → t.pixel row col = s.pixel row col) ∧
      ((∃ (row : Fin 32) (col : Fin 64), SpriteCovers x y n s row col ∧ s.pixel row col = true) → t.readV 0xF#4 = 0x01#8) ∧
      ((∀ (row : Fin 32) (col : Fin 64), SpriteCovers x y n s row col → s.pixel row col = false) → t.readV 0xF#4 = 0x00#8) ∧
      KeepsRegsBut [0xF#4] s t ∧ KeepsAllBut [.regs, .display] s t

/-- DRW of a sprite that leaves memory is OUT_OF_BOUNDS(MEMORY, I) and draws nothing; with n = 0 there is no check, nothing is drawn
and VF ends as 0 (D11, log entry 8). -/
def Obligations.DrwChecksTheSpriteRange : Prop :=
  ∀ (x y n : Nibble) (s : State), decode (wordXYN 0xD#4 x y n) = .instr (.drw x y n) ∧
    (n ≠ 0x0#4 → 0xFFF < s.i.toNat + (n.toNat - 1) → exec (.drw x y n) s = .fault (.outOfBounds .memory s.i)) ∧
    (∃ t, exec (.drw x y 0x0#4) s = .next t ∧ t.readV 0xF#4 = 0x00#8 ∧ KeepsRegsBut [0xF#4] s t ∧ KeepsAllBut [.regs] s t)

/-- Drawing the same sprite at the same place a second time completes and restores the bitmap. The coordinates are in registers other
than VF, which the first draw writes. -/
def Obligations.DrwTwiceRestoresTheDisplay : Prop :=
  ∀ (x y n : Nibble) (s t : State), x ≠ 0xF#4 → y ≠ 0xF#4 → exec (.drw x y n) s = .next t →
    ∃ u, exec (.drw x y n) t = .next u ∧ ∀ (row : Fin 32) (col : Fin 64), u.pixel row col = s.pixel row col

/-! ## Keypad, timers and memory transfer -/

/-- SKP and SKNP: with `V[x]` a key number `pc` goes on by 2 exactly when that key is down, or up, and nothing else changes; with
`V[x]` above 15 both are OUT_OF_BOUNDS(KEY, V[x]). General-knowledge content (D12, log entry 8). -/
def Obligations.KeypadSkipsReadTheNamedKey : Prop :=
  ∀ (x k : Nibble) (s : State),
    decode (wordXKK 0xE#4 x 0x9E#8) = .instr (.skp x) ∧ decode (wordXKK 0xE#4 x 0xA1#8) = .instr (.sknp x) ∧
    ((s.readV x).toNat = k.toNat →
      (∃ t, exec (.skp x) s = .next t ∧ (s.keyDown k = true → t.pc = s.pc + 2#16) ∧ (s.keyDown k = false → t.pc = s.pc) ∧
        KeepsAllBut [.pc] s t) ∧
      (∃ t, exec (.sknp x) s = .next t ∧ (s.keyDown k = false → t.pc = s.pc + 2#16) ∧ (s.keyDown k = true → t.pc = s.pc) ∧
        KeepsAllBut [.pc] s t)) ∧
    (0xF < (s.readV x).toNat → ∀ w : Word, w.toNat = (s.readV x).toNat →
      exec (.skp x) s = .fault (.outOfBounds .key w) ∧ exec (.sknp x) s = .fault (.outOfBounds .key w))

/-- LD Vx, DT; LD DT, Vx; LD ST, Vx: each copies one byte and changes nothing else. General-knowledge content (log entry 8). -/
def Obligations.TimerLoadsCopyOneByte : Prop :=
  ∀ (x : Nibble) (s : State),
    decode (wordXKK 0xF#4 x 0x07#8) = .instr (.ldVDt x) ∧ decode (wordXKK 0xF#4 x 0x15#8) = .instr (.ldDtV x) ∧
    decode (wordXKK 0xF#4 x 0x18#8) = .instr (.ldStV x) ∧
    (∃ t, exec (.ldVDt x) s = .next t ∧ t.readV x = s.dt ∧ KeepsRegsBut [x] s t ∧ KeepsAllBut [.regs] s t) ∧
    (∃ t, exec (.ldDtV x) s = .next t ∧ t.dt = s.readV x ∧ KeepsAllBut [.delay] s t) ∧
    (∃ t, exec (.ldStV x) s = .next t ∧ t.st = s.readV x ∧ t.soundActive = (s.readV x != 0x00#8) ∧ KeepsAllBut [.sound] s t)

/-- LD Vx, K: with no key down the cycle completes and only `pc` changes, back by 2, so the same instruction runs again; with some key
down `V[x]` is the lowest-numbered key down and `pc` stays advanced. General-knowledge content (D13, log entry 8). -/
def Obligations.KeyWaitRepeatsOrTakesTheLowestKey : Prop :=
  ∀ (x : Nibble) (s : State), decode (wordXKK 0xF#4 x 0x0A#8) = .instr (.ldVK x) ∧
    ((∀ k : Nibble, s.keyDown k = false) →
      (∃ t, exec (.ldVK x) s = .next t ∧ t.pc + 2#16 = s.pc ∧ KeepsAllBut [.pc] s t) ∧
      (s.fetchable = true → decode s.wordAtPc = .instr (.ldVK x) → ∃ t, step s = .next t ∧ t.pc = s.pc)) ∧
    (∀ k : Nibble, s.keyDown k = true → (∀ j : Nibble, j.toNat < k.toNat → s.keyDown j = false) →
      ∃ t, exec (.ldVK x) s = .next t ∧ (t.readV x).toNat = k.toNat ∧ KeepsRegsBut [x] s t ∧ KeepsAllBut [.regs] s t)

/-- ADD I, Vx: the sum mod 2^16; no register changes, VF included, and no value is an error. General-knowledge content (D14, log
entry 8). -/
def Obligations.AddIAddsTheRegister : Prop :=
  ∀ (x : Nibble) (s : State), decode (wordXKK 0xF#4 x 0x1E#8) = .instr (.addIV x) ∧
    ∃ t, exec (.addIV x) s = .next t ∧ t.i.toNat = (s.i.toNat + (s.readV x).toNat) % 65536 ∧ KeepsAllBut [.index] s t

/-- LD F, Vx: for a digit `I` is five times the digit, the address of its glyph in the font area at 0x000; above 15 it is
OUT_OF_BOUNDS(FONT, V[x]). General-knowledge content (D12, D17, log entry 8). -/
def Obligations.LdFPointsAtTheGlyph : Prop :=
  ∀ (x : Nibble) (s : State), decode (wordXKK 0xF#4 x 0x29#8) = .instr (.ldFV x) ∧
    ((s.readV x).toNat ≤ 0xF → ∃ t, exec (.ldFV x) s = .next t ∧ t.i.toNat = 5 * (s.readV x).toNat ∧ KeepsAllBut [.index] s t) ∧
    (0xF < (s.readV x).toNat → ∀ w : Word, w.toNat = (s.readV x).toNat → exec (.ldFV x) s = .fault (.outOfBounds .font w))

/-- LD B, Vx: the three bytes from `I` are the decimal digits of `V[x]`, hundreds first (they are below 10 and weigh up to it), every
byte outside them and all the rest, `I` included, is unchanged; past 0xFFD it is OUT_OF_BOUNDS(MEMORY, I). The memory is
canonical. General-knowledge content (D16, log entry 8). -/
def Obligations.LdBStoresTheDecimalDigits : Prop :=
  ∀ (x : Nibble) (s : State), decode (wordXKK 0xF#4 x 0x33#8) = .instr (.ldBV x) ∧
    (s.i.toNat ≤ 0xFFD → ∃ t, exec (.ldBV x) s = .next t ∧
      (s.mem.wf = true →
        100 * (t.readByte s.i.toNat).toNat + 10 * (t.readByte (s.i.toNat + 1)).toNat + (t.readByte (s.i.toNat + 2)).toNat =
          (s.readV x).toNat ∧
        (t.readByte (s.i.toNat + 1)).toNat < 10 ∧ (t.readByte (s.i.toNat + 2)).toNat < 10) ∧
      KeepsMemoryOutside (s.memAddr 0) 3 s t ∧ KeepsAllBut [.memory] s t) ∧
    (0xFFD < s.i.toNat → exec (.ldBV x) s = .fault (.outOfBounds .memory s.i))

/-- LD [I], Vx: the bytes from `I` to `I + x` are `V[0]` to `V[x]`, every byte outside them and all the rest, `I` included, is
unchanged; a range past 0xFFF is OUT_OF_BOUNDS(MEMORY, I). The memory is canonical. General-knowledge content (D15, log
entry 8). -/
def Obligations.LdMemStoresTheRegisters : Prop :=
  ∀ (x : Nibble) (s : State), decode (wordXKK 0xF#4 x 0x55#8) = .instr (.ldMemV x) ∧
    (s.i.toNat + x.toNat ≤ 0xFFF → ∃ t, exec (.ldMemV x) s = .next t ∧
      (s.mem.wf = true → ∀ y : Nibble, y.toNat ≤ x.toNat → t.readByte (s.i.toNat + y.toNat) = s.readV y) ∧
      KeepsMemoryOutside (s.memAddr 0) (x.toNat + 1) s t ∧ KeepsAllBut [.memory] s t) ∧
    (0xFFF < s.i.toNat + x.toNat → exec (.ldMemV x) s = .fault (.outOfBounds .memory s.i))

/-- LD Vx, [I]: `V[0]` to `V[x]` are the bytes from `I` to `I + x`, the registers above `x` and all the rest, `I` and memory included,
are unchanged; a range past 0xFFF is OUT_OF_BOUNDS(MEMORY, I). General-knowledge content (D15, log entry 8). -/
def Obligations.LdVLoadsTheRegisters : Prop :=
  ∀ (x : Nibble) (s : State), decode (wordXKK 0xF#4 x 0x65#8) = .instr (.ldVMem x) ∧
    (s.i.toNat + x.toNat ≤ 0xFFF → ∃ t, exec (.ldVMem x) s = .next t ∧
      (∀ y : Nibble, y.toNat ≤ x.toNat → t.readV y = s.readByte (s.i.toNat + y.toNat)) ∧
      (∀ y : Nibble, x.toNat < y.toNat → t.readV y = s.readV y) ∧ KeepsAllBut [.regs] s t) ∧
    (0xFFF < s.i.toNat + x.toNat → exec (.ldVMem x) s = .fault (.outOfBounds .memory s.i))

/-- Registers stored with LD [I], Vx come back with LD Vx, [I], from any state that has the stored memory and the same `I`. -/
def Obligations.LoadAfterStoreRestoresTheRegisters : Prop :=
  ∀ (x : Nibble) (s t r : State), s.mem.wf = true → exec (.ldMemV x) s = .next t → r.mem = t.mem → r.i = s.i →
    ∃ u, exec (.ldVMem x) r = .next u ∧ ∀ y : Nibble, y.toNat ≤ x.toNat → u.readV y = s.readV y

/-- A word stored by LD [I], Vx with x at least 1 at the place of the next fetch is the word that fetch reads: self-modifying code is
defined (D23). -/
def Obligations.StoredWordIsFetchedNext : Prop :=
  ∀ (x : Nibble) (s t : State), s.mem.wf = true → 1 ≤ x.toNat → exec (.ldMemV x) s = .next t → s.pc = s.i →
    fetchWord t = .ok (s.readV 0x0#4 ++ s.readV 0x1#4 : Word)

/-! ## Who writes what -/

/-- Only CLS and DRW change the display (derived from R253 and R255 by the spec's R258). -/
def Obligations.OnlyClsAndDrwChangeTheDisplay : Prop :=
  ∀ (i : Instr) (s t : State), exec i s = .next t → i ≠ .cls → (∀ x y n, i ≠ .drw x y n) → Part.same .display s t

/-- Only CALL and RET change `sp`; no instruction but CALL changes a stack entry; CALL changes only the entry above the old top; no
instruction changes `stack[0]`. -/
def Obligations.OnlyCallAndRetMoveTheStack : Prop :=
  ∀ (i : Instr) (s t : State), exec i s = .next t →
    (i ≠ .ret → (∀ nnn, i ≠ .call nnn) → t.sp = s.sp) ∧
    ((∀ nnn, i ≠ .call nnn) → Part.same .stack s t) ∧
    (∀ j : Nibble, j ≠ s.sp + 1#4 → t.stackAt j = s.stackAt j) ∧
    t.stackAt 0x0#4 = s.stackAt 0x0#4

/-- The special registers change only where R36, R43 and R44 say: `I` by LD I, ADD I and LD F, `DT` by LD DT, `ST` by LD ST; so no
instruction ever decrements a timer. -/
def Obligations.SpecialRegistersChangeOnlyByTheirInstructions : Prop :=
  ∀ (i : Instr) (s t : State), exec i s = .next t →
    ((∀ nnn, i ≠ .ldI nnn) → (∀ x, i ≠ .addIV x) → (∀ x, i ≠ .ldFV x) → t.i = s.i) ∧
    ((∀ x, i ≠ .ldDtV x) → t.dt = s.dt) ∧ ((∀ x, i ≠ .ldStV x) → t.st = s.st)

/-- Only LD B and LD [I] write memory, and only the bytes the access table of R77 gives them. -/
def Obligations.MemoryChangesOnlyInTheStoredRange : Prop :=
  ∀ (i : Instr) (s t : State), exec i s = .next t →
    ((∀ x, i ≠ .ldBV x) → (∀ x, i ≠ .ldMemV x) → t.mem = s.mem) ∧
    (∀ x, i = .ldBV x → KeepsMemoryOutside s.i.toNat 3 s t) ∧
    (∀ x, i = .ldMemV x → KeepsMemoryOutside s.i.toNat (x.toNat + 1) s t)

/-- No instruction writes the keypad, and exactly one entropy byte is drawn by RND and none by any other instruction. -/
def Obligations.KeypadIsReadOnlyAndEntropyIsDrawnByRnd : Prop :=
  ∀ (i : Instr) (s t : State), exec i s = .next t →
    Part.same .keypad s t ∧ ((∀ x kk, i ≠ .rnd x kk) → t.entropyCount = s.entropyCount) ∧
    (∀ x kk, i = .rnd x kk → t.entropyCount = s.entropyCount + 1)

/-- A register changes only as a destination that R33 and R34 name: `V[x]` for the instructions that write it, `V[0]` to `V[x]` for
LD Vx, [I], and VF for ADD, SUB, SHR, SUBN, SHL and DRW; every other instruction changes none. -/
def Obligations.RegistersChangeOnlyAsDestinations : Prop :=
  ∀ (i : Instr) (s t : State), exec i s = .next t → ∀ z : Nibble, t.readV z ≠ s.readV z →
    match i with
    | .ldImm x _ | .addImm x _ | .ldReg x _ | .orReg x _ | .andReg x _ | .xorReg x _ => z = x
    | .rnd x _ | .ldVDt x | .ldVK x => z = x
    | .addReg x _ | .sub x _ | .shr x _ | .subn x _ | .shl x _ => z = x ∨ z = 0xF#4
    | .drw _ _ _ => z = 0xF#4
    | .ldVMem x => z.toNat ≤ x.toNat
    | .sys _ | .cls | .ret | .jp _ | .call _ | .jpV0 _ | .ldI _ => False
    | .seImm _ _ | .sneImm _ _ | .seReg _ _ | .sneReg _ _ | .skp _ | .sknp _ => False
    | .ldDtV _ | .ldStV _ | .addIV _ | .ldFV _ | .ldBV _ | .ldMemV _ => False

/-- The control transfers and skips (SYS, RET, JP, CALL, the four SE and SNE forms, JP V0) write no register, `I`, timer, memory byte
or pixel; all but CALL and RET write `pc` at most. -/
def Obligations.ControlTransfersWriteOnlyPcAndStack : Prop :=
  ∀ (i : Instr) (s t : State), exec i s = .next t →
    ((∃ nnn, i = .sys nnn ∨ i = .jp nnn ∨ i = .jpV0 nnn) ∨ (∃ x kk, i = .seImm x kk ∨ i = .sneImm x kk) ∨
      (∃ x y, i = .seReg x y ∨ i = .sneReg x y) → KeepsAllBut [.pc] s t) ∧
    (i = .ret → KeepsAllBut [.pc, .sp] s t) ∧
    ((∃ nnn, i = .call nnn) → KeepsAllBut [.pc, .sp, .stack] s t)

/-- What a completed cycle leaves in `pc`: the address plus 2, or plus 4 for a taken skip, the transfer's target, or the instruction's
own address for a waiting LD Vx, K. -/
def Obligations.PcAfterACompletedCycle : Prop :=
  ∀ s t : State, step s = .next t → ∃ i, decode s.wordAtPc = .instr i ∧
    match i with
    | .jp nnn | .call nnn => t.pc.toNat = nnn.toNat
    | .jpV0 nnn => t.pc.toNat = nnn.toNat + (s.readV 0x0#4).toNat
    | .ret => t.pc = s.stackAt s.sp
    | .seImm _ _ | .sneImm _ _ | .seReg _ _ | .sneReg _ _ | .skp _ | .sknp _ => t.pc = s.pc + 2#16 ∨ t.pc = s.pc + 4#16
    | .ldVK _ => t.pc = s.pc + 2#16 ∨ (t.pc = s.pc ∧ ∀ k : Nibble, s.keyDown k = false)
    | .sys _ | .cls | .ldImm _ _ | .addImm _ _ | .ldReg _ _ | .orReg _ _ | .andReg _ _ | .xorReg _ _ => t.pc = s.pc + 2#16
    | .addReg _ _ | .sub _ _ | .shr _ _ | .subn _ _ | .shl _ _ | .ldI _ | .rnd _ _ | .drw _ _ _ => t.pc = s.pc + 2#16
    | .ldVDt _ | .ldDtV _ | .ldStV _ | .addIV _ | .ldFV _ | .ldBV _ | .ldMemV _ | .ldVMem _ => t.pc = s.pc + 2#16

/-! ## Invariants and isolation -/

/-- Every step keeps the invariant: canonical memory, `stack[0]` at its reset value, `pc` at most 0x10FE and stack entries at most
0x1000, the ranges R39 derives. -/
def Obligations.StepKeepsTheInvariant : Prop :=
  ∀ s t : State, Inv s → step s = .next t → Inv t

/-- The reset state meets the invariant, and its `pc` is 0x0200 (the spec's decision D18), which is fetchable. -/
def Obligations.ResetMeetsTheInvariant : Prop :=
  Inv State.reset ∧ State.reset.pc = 0x0200#16 ∧ State.reset.fetchable = true

/-- Reset leaves what R50 lists: every byte of memory, every register, `I`, `sp`, every stack entry, both timers, every key and every
display byte zero, and `pc` at the load address (R50). -/
def Obligations.ResetLeavesTheListedValues : Prop :=
  (∀ a : Nat, State.reset.readByte a = 0x00#8) ∧ (∀ x : Nibble, State.reset.readV x = 0x00#8) ∧ State.reset.i = 0x0000#16 ∧
  State.reset.pc = Config.loadAddress ∧ State.reset.sp = 0x0#4 ∧ (∀ j : Nibble, State.reset.stackAt j = 0x0000#16) ∧
  State.reset.dt = 0x00#8 ∧ State.reset.st = 0x00#8 ∧ (∀ k : Nibble, State.reset.keyDown k = false) ∧
  (∀ b : Fin 256, State.reset.display.get b = 0x00#8)

/-- Any sequence of host operations and cycles that is not refused, errors and resets among them, keeps the invariant of the
machine. -/
def Obligations.SessionsKeepTheInvariant : Prop :=
  ∀ (ops : List HostOp) (x y : Session) (rs : List Response), Inv x.machine → x.run ops = .next (y, rs) → Inv y.machine

/-- No program can observe `stack[0]` or the entries above `sp`: two states that differ only there make the same step, to the same
error or to states that again differ only there. R49 derives it. The RND case holds because the two states have the same
`entropyCount` and so draw the same byte: that equal byte is the MODEL'S CHOICE (log entry 2, DESIGN CHOICE), since R138 makes the
byte an input of the cycle; the statement compares only runs that are given the same entropy bytes. -/
def Obligations.HiddenStackEntriesAreUnobservable : Prop :=
  ∀ s t : State, ObsEq s t → ObsEqOutcome (step s) (step t)

/-! ## The host between cycles -/

/-- A tick decrements its own timer, clamped at 0, and touches nothing else; TimerTick does both (R353). -/
def Obligations.TimerTickDecrementsAndClamps : Prop :=
  ∀ s : State,
    s.tickDelay.dt.toNat = s.dt.toNat - 1 ∧ KeepsAllBut [.delay] s s.tickDelay ∧
    s.tickSound.st.toNat = s.st.toNat - 1 ∧ KeepsAllBut [.sound] s s.tickSound ∧
    s.timerTick.dt.toNat = s.dt.toNat - 1 ∧ s.timerTick.st.toNat = s.st.toNat - 1 ∧
    KeepsAllBut [.delay, .sound] s s.timerTick

/-- SetKey sets one key and nothing else, ReadDisplay answers the 256 bytes and changes nothing, and the sound is active exactly while
`ST` is not 0. -/
def Obligations.KeypadDisplayAndSoundInterfaces : Prop :=
  ∀ (s : State) (k : Nibble) (d : Bool),
    (s.setKey k d).keyDown k = d ∧ (∀ j : Nibble, j ≠ k → (s.setKey k d).keyDown j = s.keyDown j) ∧
    KeepsAllBut [.keypad] s (s.setKey k d) ∧
    s.readDisplay.length = 256 ∧ (∀ b : Fin 256, s.readDisplay[b.val]? = some (s.display.get b)) ∧
    (∀ c : Bool, Session.apply { machine := s, cycled := c } .readDisplay =
      .next ({ machine := s, cycled := c }, .display s.readDisplay)) ∧
    (s.soundActive = true ↔ s.st ≠ 0x00#8)

/-- LoadBytes inside memory before the first cycle stores the image byte for byte and touches nothing else; past the end of memory, or
after the first cycle, it is refused by name. The memory is canonical. -/
def Obligations.LoadBytesStoresTheImageOrIsRefused : Prop :=
  ∀ (s : State) (a : Nat) (bs : List Byte),
    (a + bs.length ≤ 4096 → ∃ t, Session.apply { machine := s, cycled := false } (.loadBytes a bs) =
        .next ({ machine := t, cycled := false }, .nothing) ∧
      (s.mem.wf = true → ∀ (k : Nat) (hk : k < bs.length), t.readByte (a + k) = bs[k]) ∧
      KeepsMemoryOutside a bs.length s t ∧ KeepsAllBut [.memory] s t) ∧
    (4096 < a + bs.length → Session.apply { machine := s, cycled := false } (.loadBytes a bs) = .refused .loadOutOfRange) ∧
    Session.apply { machine := s, cycled := true } (.loadBytes a bs) = .refused .loadAfterFirstCycle
end

