-- ==== Sys2Proof/Laws/State.lean ====
section
/-!
SUPPORT. What each update of the state leaves in each field and in each read, one lemma each, so that no proof unfolds a record
update. Every lemma of the first part holds by definition; the reads of an updated register, stack entry or key follow it.
-/
namespace Sys2Proof.Machine

/-! ## Fields after updates -/

/-! `writeV` -/

@[simp] theorem State.writeV_mem (s : State) (x : Nibble) (b : Byte) : (s.writeV x b).mem = s.mem := rfl
@[simp] theorem State.writeV_v (s : State) (x : Nibble) (b : Byte) : (s.writeV x b).v = s.v.set x.toNat b x.isLt := rfl
@[simp] theorem State.writeV_i (s : State) (x : Nibble) (b : Byte) : (s.writeV x b).i = s.i := rfl
@[simp] theorem State.writeV_pc (s : State) (x : Nibble) (b : Byte) : (s.writeV x b).pc = s.pc := rfl
@[simp] theorem State.writeV_sp (s : State) (x : Nibble) (b : Byte) : (s.writeV x b).sp = s.sp := rfl
@[simp] theorem State.writeV_stack (s : State) (x : Nibble) (b : Byte) : (s.writeV x b).stack = s.stack := rfl
@[simp] theorem State.writeV_dt (s : State) (x : Nibble) (b : Byte) : (s.writeV x b).dt = s.dt := rfl
@[simp] theorem State.writeV_st (s : State) (x : Nibble) (b : Byte) : (s.writeV x b).st = s.st := rfl
@[simp] theorem State.writeV_keypad (s : State) (x : Nibble) (b : Byte) : (s.writeV x b).keypad = s.keypad := rfl
@[simp] theorem State.writeV_display (s : State) (x : Nibble) (b : Byte) : (s.writeV x b).display = s.display := rfl
@[simp] theorem State.writeV_entropyCount (s : State) (x : Nibble) (b : Byte) :
    (s.writeV x b).entropyCount = s.entropyCount := rfl
@[simp] theorem State.keyDown_writeV (s : State) (x : Nibble) (b : Byte) (k : Nibble) :
    (s.writeV x b).keyDown k = s.keyDown k := rfl
@[simp] theorem State.stackAt_writeV (s : State) (x : Nibble) (b : Byte) (j : Nibble) :
    (s.writeV x b).stackAt j = s.stackAt j := rfl
@[simp] theorem State.readByte_writeV (s : State) (x : Nibble) (b : Byte) (a : Nat) :
    (s.writeV x b).readByte a = s.readByte a := rfl

/-! `writeI` -/

@[simp] theorem State.writeI_mem (s : State) (w : Word) : (s.writeI w).mem = s.mem := rfl
@[simp] theorem State.writeI_v (s : State) (w : Word) : (s.writeI w).v = s.v := rfl
@[simp] theorem State.writeI_i (s : State) (w : Word) : (s.writeI w).i = w := rfl
@[simp] theorem State.writeI_pc (s : State) (w : Word) : (s.writeI w).pc = s.pc := rfl
@[simp] theorem State.writeI_sp (s : State) (w : Word) : (s.writeI w).sp = s.sp := rfl
@[simp] theorem State.writeI_stack (s : State) (w : Word) : (s.writeI w).stack = s.stack := rfl
@[simp] theorem State.writeI_dt (s : State) (w : Word) : (s.writeI w).dt = s.dt := rfl
@[simp] theorem State.writeI_st (s : State) (w : Word) : (s.writeI w).st = s.st := rfl
@[simp] theorem State.writeI_keypad (s : State) (w : Word) : (s.writeI w).keypad = s.keypad := rfl
@[simp] theorem State.writeI_display (s : State) (w : Word) : (s.writeI w).display = s.display := rfl
@[simp] theorem State.writeI_entropyCount (s : State) (w : Word) : (s.writeI w).entropyCount = s.entropyCount := rfl
@[simp] theorem State.readV_writeI (s : State) (w : Word) (y : Nibble) : (s.writeI w).readV y = s.readV y := rfl
@[simp] theorem State.keyDown_writeI (s : State) (w : Word) (k : Nibble) : (s.writeI w).keyDown k = s.keyDown k := rfl
@[simp] theorem State.stackAt_writeI (s : State) (w : Word) (j : Nibble) : (s.writeI w).stackAt j = s.stackAt j := rfl
@[simp] theorem State.readByte_writeI (s : State) (w : Word) (a : Nat) : (s.writeI w).readByte a = s.readByte a := rfl

/-! `writePc` -/

@[simp] theorem State.writePc_mem (s : State) (w : Word) : (s.writePc w).mem = s.mem := rfl
@[simp] theorem State.writePc_v (s : State) (w : Word) : (s.writePc w).v = s.v := rfl
@[simp] theorem State.writePc_i (s : State) (w : Word) : (s.writePc w).i = s.i := rfl
@[simp] theorem State.writePc_pc (s : State) (w : Word) : (s.writePc w).pc = w := rfl
@[simp] theorem State.writePc_sp (s : State) (w : Word) : (s.writePc w).sp = s.sp := rfl
@[simp] theorem State.writePc_stack (s : State) (w : Word) : (s.writePc w).stack = s.stack := rfl
@[simp] theorem State.writePc_dt (s : State) (w : Word) : (s.writePc w).dt = s.dt := rfl
@[simp] theorem State.writePc_st (s : State) (w : Word) : (s.writePc w).st = s.st := rfl
@[simp] theorem State.writePc_keypad (s : State) (w : Word) : (s.writePc w).keypad = s.keypad := rfl
@[simp] theorem State.writePc_display (s : State) (w : Word) : (s.writePc w).display = s.display := rfl
@[simp] theorem State.writePc_entropyCount (s : State) (w : Word) : (s.writePc w).entropyCount = s.entropyCount := rfl
@[simp] theorem State.readV_writePc (s : State) (w : Word) (y : Nibble) : (s.writePc w).readV y = s.readV y := rfl
@[simp] theorem State.keyDown_writePc (s : State) (w : Word) (k : Nibble) : (s.writePc w).keyDown k = s.keyDown k := rfl
@[simp] theorem State.stackAt_writePc (s : State) (w : Word) (j : Nibble) : (s.writePc w).stackAt j = s.stackAt j := rfl
@[simp] theorem State.readByte_writePc (s : State) (w : Word) (a : Nat) : (s.writePc w).readByte a = s.readByte a := rfl

/-! `writeDt` -/

@[simp] theorem State.writeDt_mem (s : State) (b : Byte) : (s.writeDt b).mem = s.mem := rfl
@[simp] theorem State.writeDt_v (s : State) (b : Byte) : (s.writeDt b).v = s.v := rfl
@[simp] theorem State.writeDt_i (s : State) (b : Byte) : (s.writeDt b).i = s.i := rfl
@[simp] theorem State.writeDt_pc (s : State) (b : Byte) : (s.writeDt b).pc = s.pc := rfl
@[simp] theorem State.writeDt_sp (s : State) (b : Byte) : (s.writeDt b).sp = s.sp := rfl
@[simp] theorem State.writeDt_stack (s : State) (b : Byte) : (s.writeDt b).stack = s.stack := rfl
@[simp] theorem State.writeDt_dt (s : State) (b : Byte) : (s.writeDt b).dt = b := rfl
@[simp] theorem State.writeDt_st (s : State) (b : Byte) : (s.writeDt b).st = s.st := rfl
@[simp] theorem State.writeDt_keypad (s : State) (b : Byte) : (s.writeDt b).keypad = s.keypad := rfl
@[simp] theorem State.writeDt_display (s : State) (b : Byte) : (s.writeDt b).display = s.display := rfl
@[simp] theorem State.writeDt_entropyCount (s : State) (b : Byte) : (s.writeDt b).entropyCount = s.entropyCount := rfl
@[simp] theorem State.readV_writeDt (s : State) (b : Byte) (y : Nibble) : (s.writeDt b).readV y = s.readV y := rfl
@[simp] theorem State.keyDown_writeDt (s : State) (b : Byte) (k : Nibble) : (s.writeDt b).keyDown k = s.keyDown k := rfl
@[simp] theorem State.stackAt_writeDt (s : State) (b : Byte) (j : Nibble) : (s.writeDt b).stackAt j = s.stackAt j := rfl
@[simp] theorem State.readByte_writeDt (s : State) (b : Byte) (a : Nat) : (s.writeDt b).readByte a = s.readByte a := rfl

/-! `writeSt` -/

@[simp] theorem State.writeSt_mem (s : State) (b : Byte) : (s.writeSt b).mem = s.mem := rfl
@[simp] theorem State.writeSt_v (s : State) (b : Byte) : (s.writeSt b).v = s.v := rfl
@[simp] theorem State.writeSt_i (s : State) (b : Byte) : (s.writeSt b).i = s.i := rfl
@[simp] theorem State.writeSt_pc (s : State) (b : Byte) : (s.writeSt b).pc = s.pc := rfl
@[simp] theorem State.writeSt_sp (s : State) (b : Byte) : (s.writeSt b).sp = s.sp := rfl
@[simp] theorem State.writeSt_stack (s : State) (b : Byte) : (s.writeSt b).stack = s.stack := rfl
@[simp] theorem State.writeSt_dt (s : State) (b : Byte) : (s.writeSt b).dt = s.dt := rfl
@[simp] theorem State.writeSt_st (s : State) (b : Byte) : (s.writeSt b).st = b := rfl
@[simp] theorem State.writeSt_keypad (s : State) (b : Byte) : (s.writeSt b).keypad = s.keypad := rfl
@[simp] theorem State.writeSt_display (s : State) (b : Byte) : (s.writeSt b).display = s.display := rfl
@[simp] theorem State.writeSt_entropyCount (s : State) (b : Byte) : (s.writeSt b).entropyCount = s.entropyCount := rfl
@[simp] theorem State.readV_writeSt (s : State) (b : Byte) (y : Nibble) : (s.writeSt b).readV y = s.readV y := rfl
@[simp] theorem State.keyDown_writeSt (s : State) (b : Byte) (k : Nibble) : (s.writeSt b).keyDown k = s.keyDown k := rfl
@[simp] theorem State.stackAt_writeSt (s : State) (b : Byte) (j : Nibble) : (s.writeSt b).stackAt j = s.stackAt j := rfl
@[simp] theorem State.readByte_writeSt (s : State) (b : Byte) (a : Nat) : (s.writeSt b).readByte a = s.readByte a := rfl

/-! `writeDisplay` -/

@[simp] theorem State.writeDisplay_mem (s : State) (d : Display) : (s.writeDisplay d).mem = s.mem := rfl
@[simp] theorem State.writeDisplay_v (s : State) (d : Display) : (s.writeDisplay d).v = s.v := rfl
@[simp] theorem State.writeDisplay_i (s : State) (d : Display) : (s.writeDisplay d).i = s.i := rfl
@[simp] theorem State.writeDisplay_pc (s : State) (d : Display) : (s.writeDisplay d).pc = s.pc := rfl
@[simp] theorem State.writeDisplay_sp (s : State) (d : Display) : (s.writeDisplay d).sp = s.sp := rfl
@[simp] theorem State.writeDisplay_stack (s : State) (d : Display) : (s.writeDisplay d).stack = s.stack := rfl
@[simp] theorem State.writeDisplay_dt (s : State) (d : Display) : (s.writeDisplay d).dt = s.dt := rfl
@[simp] theorem State.writeDisplay_st (s : State) (d : Display) : (s.writeDisplay d).st = s.st := rfl
@[simp] theorem State.writeDisplay_keypad (s : State) (d : Display) : (s.writeDisplay d).keypad = s.keypad := rfl
@[simp] theorem State.writeDisplay_display (s : State) (d : Display) : (s.writeDisplay d).display = d := rfl
@[simp] theorem State.writeDisplay_entropyCount (s : State) (d : Display) :
    (s.writeDisplay d).entropyCount = s.entropyCount := rfl
@[simp] theorem State.readV_writeDisplay (s : State) (d : Display) (y : Nibble) :
    (s.writeDisplay d).readV y = s.readV y := rfl
@[simp] theorem State.keyDown_writeDisplay (s : State) (d : Display) (k : Nibble) :
    (s.writeDisplay d).keyDown k = s.keyDown k := rfl
@[simp] theorem State.stackAt_writeDisplay (s : State) (d : Display) (j : Nibble) :
    (s.writeDisplay d).stackAt j = s.stackAt j := rfl
@[simp] theorem State.readByte_writeDisplay (s : State) (d : Display) (a : Nat) :
    (s.writeDisplay d).readByte a = s.readByte a := rfl

/-! `push` -/

@[simp] theorem State.push_mem (s : State) (w : Word) : (s.push w).mem = s.mem := rfl
@[simp] theorem State.push_v (s : State) (w : Word) : (s.push w).v = s.v := rfl
@[simp] theorem State.push_i (s : State) (w : Word) : (s.push w).i = s.i := rfl
@[simp] theorem State.push_pc (s : State) (w : Word) : (s.push w).pc = s.pc := rfl
@[simp] theorem State.push_sp (s : State) (w : Word) : (s.push w).sp = s.sp + 1#4 := rfl
@[simp] theorem State.push_stack (s : State) (w : Word) :
    (s.push w).stack = s.stack.set (s.sp + 1#4).toNat w (s.sp + 1#4).isLt := rfl
@[simp] theorem State.push_dt (s : State) (w : Word) : (s.push w).dt = s.dt := rfl
@[simp] theorem State.push_st (s : State) (w : Word) : (s.push w).st = s.st := rfl
@[simp] theorem State.push_keypad (s : State) (w : Word) : (s.push w).keypad = s.keypad := rfl
@[simp] theorem State.push_display (s : State) (w : Word) : (s.push w).display = s.display := rfl
@[simp] theorem State.push_entropyCount (s : State) (w : Word) : (s.push w).entropyCount = s.entropyCount := rfl
@[simp] theorem State.readV_push (s : State) (w : Word) (y : Nibble) : (s.push w).readV y = s.readV y := rfl
@[simp] theorem State.keyDown_push (s : State) (w : Word) (k : Nibble) : (s.push w).keyDown k = s.keyDown k := rfl
@[simp] theorem State.readByte_push (s : State) (w : Word) (a : Nat) : (s.push w).readByte a = s.readByte a := rfl

/-! `pop` -/

@[simp] theorem State.pop_mem (s : State) : s.pop.mem = s.mem := rfl
@[simp] theorem State.pop_v (s : State) : s.pop.v = s.v := rfl
@[simp] theorem State.pop_i (s : State) : s.pop.i = s.i := rfl
@[simp] theorem State.pop_pc (s : State) : s.pop.pc = s.pc := rfl
@[simp] theorem State.pop_sp (s : State) : s.pop.sp = s.sp - 1#4 := rfl
@[simp] theorem State.pop_stack (s : State) : s.pop.stack = s.stack := rfl
@[simp] theorem State.pop_dt (s : State) : s.pop.dt = s.dt := rfl
@[simp] theorem State.pop_st (s : State) : s.pop.st = s.st := rfl
@[simp] theorem State.pop_keypad (s : State) : s.pop.keypad = s.keypad := rfl
@[simp] theorem State.pop_display (s : State) : s.pop.display = s.display := rfl
@[simp] theorem State.pop_entropyCount (s : State) : s.pop.entropyCount = s.entropyCount := rfl
@[simp] theorem State.readV_pop (s : State) (y : Nibble) : s.pop.readV y = s.readV y := rfl
@[simp] theorem State.keyDown_pop (s : State) (k : Nibble) : s.pop.keyDown k = s.keyDown k := rfl
@[simp] theorem State.stackAt_pop (s : State) (j : Nibble) : s.pop.stackAt j = s.stackAt j := rfl
@[simp] theorem State.readByte_pop (s : State) (a : Nat) : s.pop.readByte a = s.readByte a := rfl

/-! `writeBytes` -/

@[simp] theorem State.writeBytes_mem (s : State) (c : Nat) (bs : List Byte) :
    (s.writeBytes c bs).mem = Memory.writeBytes s.mem c bs := rfl
@[simp] theorem State.writeBytes_v (s : State) (c : Nat) (bs : List Byte) : (s.writeBytes c bs).v = s.v := rfl
@[simp] theorem State.writeBytes_i (s : State) (c : Nat) (bs : List Byte) : (s.writeBytes c bs).i = s.i := rfl
@[simp] theorem State.writeBytes_pc (s : State) (c : Nat) (bs : List Byte) : (s.writeBytes c bs).pc = s.pc := rfl
@[simp] theorem State.writeBytes_sp (s : State) (c : Nat) (bs : List Byte) : (s.writeBytes c bs).sp = s.sp := rfl
@[simp] theorem State.writeBytes_stack (s : State) (c : Nat) (bs : List Byte) : (s.writeBytes c bs).stack = s.stack := rfl
@[simp] theorem State.writeBytes_dt (s : State) (c : Nat) (bs : List Byte) : (s.writeBytes c bs).dt = s.dt := rfl
@[simp] theorem State.writeBytes_st (s : State) (c : Nat) (bs : List Byte) : (s.writeBytes c bs).st = s.st := rfl
@[simp] theorem State.writeBytes_keypad (s : State) (c : Nat) (bs : List Byte) : (s.writeBytes c bs).keypad = s.keypad := rfl
@[simp] theorem State.writeBytes_display (s : State) (c : Nat) (bs : List Byte) :
    (s.writeBytes c bs).display = s.display := rfl
@[simp] theorem State.writeBytes_entropyCount (s : State) (c : Nat) (bs : List Byte) :
    (s.writeBytes c bs).entropyCount = s.entropyCount := rfl
@[simp] theorem State.readV_writeBytes (s : State) (c : Nat) (bs : List Byte) (y : Nibble) :
    (s.writeBytes c bs).readV y = s.readV y := rfl
@[simp] theorem State.keyDown_writeBytes (s : State) (c : Nat) (bs : List Byte) (k : Nibble) :
    (s.writeBytes c bs).keyDown k = s.keyDown k := rfl
@[simp] theorem State.stackAt_writeBytes (s : State) (c : Nat) (bs : List Byte) (j : Nibble) :
    (s.writeBytes c bs).stackAt j = s.stackAt j := rfl

/-! `setKey` -/

@[simp] theorem State.setKey_mem (s : State) (q : Nibble) (d : Bool) : (s.setKey q d).mem = s.mem := rfl
@[simp] theorem State.setKey_v (s : State) (q : Nibble) (d : Bool) : (s.setKey q d).v = s.v := rfl
@[simp] theorem State.setKey_i (s : State) (q : Nibble) (d : Bool) : (s.setKey q d).i = s.i := rfl
@[simp] theorem State.setKey_pc (s : State) (q : Nibble) (d : Bool) : (s.setKey q d).pc = s.pc := rfl
@[simp] theorem State.setKey_sp (s : State) (q : Nibble) (d : Bool) : (s.setKey q d).sp = s.sp := rfl
@[simp] theorem State.setKey_stack (s : State) (q : Nibble) (d : Bool) : (s.setKey q d).stack = s.stack := rfl
@[simp] theorem State.setKey_dt (s : State) (q : Nibble) (d : Bool) : (s.setKey q d).dt = s.dt := rfl
@[simp] theorem State.setKey_st (s : State) (q : Nibble) (d : Bool) : (s.setKey q d).st = s.st := rfl
@[simp] theorem State.setKey_keypad (s : State) (q : Nibble) (d : Bool) :
    (s.setKey q d).keypad = s.keypad.set q.toNat d q.isLt := rfl
@[simp] theorem State.setKey_display (s : State) (q : Nibble) (d : Bool) : (s.setKey q d).display = s.display := rfl
@[simp] theorem State.setKey_entropyCount (s : State) (q : Nibble) (d : Bool) :
    (s.setKey q d).entropyCount = s.entropyCount := rfl
@[simp] theorem State.readV_setKey (s : State) (q : Nibble) (d : Bool) (y : Nibble) :
    (s.setKey q d).readV y = s.readV y := rfl
@[simp] theorem State.stackAt_setKey (s : State) (q : Nibble) (d : Bool) (j : Nibble) :
    (s.setKey q d).stackAt j = s.stackAt j := rfl
@[simp] theorem State.readByte_setKey (s : State) (q : Nibble) (d : Bool) (a : Nat) :
    (s.setKey q d).readByte a = s.readByte a := rfl

/-! `countEntropy` -/

@[simp] theorem State.countEntropy_mem (s : State) : s.countEntropy.mem = s.mem := rfl
@[simp] theorem State.countEntropy_v (s : State) : s.countEntropy.v = s.v := rfl
@[simp] theorem State.countEntropy_i (s : State) : s.countEntropy.i = s.i := rfl
@[simp] theorem State.countEntropy_pc (s : State) : s.countEntropy.pc = s.pc := rfl
@[simp] theorem State.countEntropy_sp (s : State) : s.countEntropy.sp = s.sp := rfl
@[simp] theorem State.countEntropy_stack (s : State) : s.countEntropy.stack = s.stack := rfl
@[simp] theorem State.countEntropy_dt (s : State) : s.countEntropy.dt = s.dt := rfl
@[simp] theorem State.countEntropy_st (s : State) : s.countEntropy.st = s.st := rfl
@[simp] theorem State.countEntropy_keypad (s : State) : s.countEntropy.keypad = s.keypad := rfl
@[simp] theorem State.countEntropy_display (s : State) : s.countEntropy.display = s.display := rfl
@[simp] theorem State.countEntropy_entropyCount (s : State) : s.countEntropy.entropyCount = s.entropyCount + 1 := rfl
@[simp] theorem State.readV_countEntropy (s : State) (y : Nibble) : s.countEntropy.readV y = s.readV y := rfl
@[simp] theorem State.keyDown_countEntropy (s : State) (k : Nibble) : s.countEntropy.keyDown k = s.keyDown k := rfl
@[simp] theorem State.stackAt_countEntropy (s : State) (j : Nibble) : s.countEntropy.stackAt j = s.stackAt j := rfl
@[simp] theorem State.readByte_countEntropy (s : State) (a : Nat) : s.countEntropy.readByte a = s.readByte a := rfl

/-! ## Abbreviating updates -/

@[simp] theorem State.advancePc_eq (s : State) : s.advancePc = s.writePc (s.pc + 2#16) := rfl
@[simp] theorem State.writeFlag_eq (s : State) (b : Byte) : s.writeFlag b = s.writeV 0xF#4 b := rfl
@[simp] theorem State.flag_eq (s : State) : s.flag = s.readV 0xF#4 := rfl
@[simp] theorem State.tickDelay_eq (s : State) : s.tickDelay = s.writeDt (tickByte s.dt) := rfl
@[simp] theorem State.tickSound_eq (s : State) : s.tickSound = s.writeSt (tickByte s.st) := rfl
@[simp] theorem State.timerTick_eq (s : State) : s.timerTick = (s.writeDt (tickByte s.dt)).writeSt (tickByte s.st) := rfl

/-! ## The reset state -/

@[simp] theorem State.reset_mem : State.reset.mem = [] := rfl
@[simp] theorem State.reset_v : State.reset.v = Vector.replicate 16 0x00#8 := rfl
@[simp] theorem State.reset_i : State.reset.i = 0x0000#16 := rfl
@[simp] theorem State.reset_pc : State.reset.pc = 0x0200#16 := rfl
@[simp] theorem State.reset_sp : State.reset.sp = 0x0#4 := rfl
@[simp] theorem State.reset_stack : State.reset.stack = Vector.replicate 16 0x0000#16 := rfl
@[simp] theorem State.reset_dt : State.reset.dt = 0x00#8 := rfl
@[simp] theorem State.reset_st : State.reset.st = 0x00#8 := rfl
@[simp] theorem State.reset_keypad : State.reset.keypad = Vector.replicate 16 false := rfl
@[simp] theorem State.reset_display : State.reset.display = Vector.replicate 256 0x00#8 := rfl

/-! ## Reads of what was updated -/

/-- A register after a register write. -/
theorem State.readV_writeV (s : State) (x y : Nibble) (b : Byte) :
    (s.writeV x b).readV y = if y = x then b else s.readV y := by
  have h : (x.toNat = y.toFin.val) ↔ y = x := by
    rw [eq_comm (a := x.toNat)]; exact BitVec.toNat_inj
  simp only [State.readV, State.writeV_v, Vector.get_eq_getElem, Vector.getElem_set, h]

@[simp] theorem State.readV_writeV_same (s : State) (x : Nibble) (b : Byte) : (s.writeV x b).readV x = b := by
  simp [State.readV_writeV]

theorem State.readV_writeV_other (s : State) (x y : Nibble) (b : Byte) (h : y ≠ x) :
    (s.writeV x b).readV y = s.readV y := by
  simp [State.readV_writeV, h]

/-- A stack entry after a push: the new top holds the pushed word, every other entry is kept. -/
theorem State.stackAt_push (s : State) (w : Word) (j : Nibble) :
    (s.push w).stackAt j = if j = s.sp + 1#4 then w else s.stackAt j := by
  have h : ((s.sp + 1#4).toNat = j.toFin.val) ↔ j = s.sp + 1#4 := by
    rw [eq_comm (a := (s.sp + 1#4).toNat)]; exact BitVec.toNat_inj
  simp only [State.stackAt, State.push_stack, Vector.get_eq_getElem, Vector.getElem_set, h]

/-- A key flag after `SetKey`. -/
theorem State.keyDown_setKey (s : State) (q k : Nibble) (d : Bool) :
    (s.setKey q d).keyDown k = if k = q then d else s.keyDown k := by
  have h : (q.toNat = k.toFin.val) ↔ k = q := by
    rw [eq_comm (a := q.toNat)]; exact BitVec.toNat_inj
  simp only [State.keyDown, State.setKey_keypad, Vector.get_eq_getElem, Vector.getElem_set, h]

@[simp] theorem State.readV_reset (y : Nibble) : State.reset.readV y = 0x00#8 := by
  simp [State.readV, Vector.get_eq_getElem]

@[simp] theorem State.stackAt_reset (j : Nibble) : State.reset.stackAt j = 0x0000#16 := by
  simp [State.stackAt, Vector.get_eq_getElem]

@[simp] theorem State.keyDown_reset (k : Nibble) : State.reset.keyDown k = false := by
  simp [State.keyDown, Vector.get_eq_getElem]

@[simp] theorem State.readByte_reset (a : Nat) : State.reset.readByte a = 0x00#8 := rfl

end Sys2Proof.Machine
end

