-- ==== Sys2Proof/Laws/Draw.lean ====
section
/-!
SUPPORT. The laws of the display: a pixel after a pixel is set, and what the two drawing loops leave in every pixel and in the
collision flag.
-/
namespace Sys2Proof.Machine

/-! ## Pixels -/

/-- A bit of a byte after one of its bits is set. -/
theorem getLsbD_setBit {b : Byte} {k j : Nat} {p : Bool} (hk : k < 8) (hj : j < 8) :
    (setBit b k p).getLsbD j = if j = k then p else b.getLsbD j := by
  have h1 : (0x01#8 <<< k).getLsbD j = decide (j = k) := by
    have : ∀ k < 8, ∀ j < 8, (0x01#8 <<< k).getLsbD j = decide (j = k) := by decide
    exact this k hk j hj
  cases p
  · simp only [setBit, Bool.false_eq_true, if_false, BitVec.getLsbD_and, BitVec.getLsbD_not, h1, hj]
    by_cases h : j = k <;> simp [h]
  · simp only [setBit, if_true, BitVec.getLsbD_or, h1]
    by_cases h : j = k <;> simp [h]

/-- Two pixels share a byte and a bit exactly when they are the same pixel. -/
theorem pixel_place_inj {r r' : Fin 32} {c c' : Fin 64} :
    (pixelByte r c = pixelByte r' c' ∧ c.val % 8 = c'.val % 8) ↔ (r = r' ∧ c = c') := by
  simp only [pixelByte, Fin.ext_iff]
  omega

/-- A pixel after a pixel is set. -/
theorem pixel_setPixel (d : Display) (r r' : Fin 32) (c c' : Fin 64) (p : Bool) :
    pixel (setPixel d r c p) r' c' = if r' = r ∧ c' = c then p else pixel d r' c' := by
  by_cases hb : pixelByte r c = pixelByte r' c'
  · have hg : (setPixel d r c p).get (pixelByte r' c') = setBit (d.get (pixelByte r' c')) (c.val % 8) p := by
      rw [← hb]
      simp [setPixel, Vector.get_eq_getElem]
    rw [pixel, hg, getLsbD_setBit (by omega) (by omega)]
    by_cases hc : c'.val % 8 = c.val % 8
    · obtain ⟨h1, h2⟩ := pixel_place_inj.1 ⟨hb, hc.symm⟩
      simp [h1, h2]
    · have hn : ¬ (r' = r ∧ c' = c) := fun h => hc (by rw [h.2])
      simp [hc, hn, pixel]
  · have hv : (pixelByte r c).val ≠ (pixelByte r' c').val := fun h => hb (Fin.ext h)
    have hg : (setPixel d r c p).get (pixelByte r' c') = d.get (pixelByte r' c') := by
      simp [setPixel, Vector.get_eq_getElem, hv]
    have hn : ¬ (r' = r ∧ c' = c) := fun h => hb (by rw [h.1, h.2])
    simp [pixel, hg, hn]

/-- One sprite bit inverts its pixel and leaves every other one. -/
theorem Canvas.pixel_flip (c : Canvas) (r r' : Fin 32) (q q' : Fin 64) :
    pixel (c.flip r q).display r' q' = (pixel c.display r' q' ^^ decide (r' = r ∧ q' = q)) := by
  rw [Canvas.flip, pixel_setPixel]
  by_cases h : r' = r ∧ q' = q
  · obtain ⟨rfl, rfl⟩ := h
    simp
  · simp [h]

@[simp] theorem Canvas.collision_flip (c : Canvas) (r : Fin 32) (q : Fin 64) :
    (c.flip r q).collision = (c.collision || pixel c.display r q) := rfl

@[simp] theorem pixel_blank (r : Fin 32) (c : Fin 64) : pixel blankDisplay r c = false := by
  simp [pixel, blankDisplay, Vector.get_eq_getElem]

/-- An exclusive or with a false side is the other side. -/
theorem xor_of_not {p q : Prop} (h : ¬ q) : Xor p q ↔ p := by
  simp [Xor, h]

/-! ## One sprite row -/

/-- Some listed column of the sprite byte is set and lies on display column `q`. -/
def RowCovers (b : Byte) (x0 : Nat) (ks : List Nat) (q : Fin 64) : Prop :=
  ∃ k ∈ ks, b.getLsbD (7 - k) = true ∧ q = Fin.ofNat 64 (x0 + k)

/-- Different columns of a sprite row lie on different display columns. -/
theorem col_inj {x0 k k' : Nat} (hk : k < 8) (hk' : k' < 8) (h : Fin.ofNat 64 (x0 + k) = Fin.ofNat 64 (x0 + k')) : k = k' := by
  have := congrArg Fin.val h
  simp only [Fin.val_ofNat] at this
  omega

theorem not_rowCovers_nil (b : Byte) (x0 : Nat) (q : Fin 64) : ¬ RowCovers b x0 [] q := by
  simp [RowCovers]

theorem rowCovers_cons {b : Byte} {x0 k : Nat} {ks : List Nat} {q : Fin 64} :
    RowCovers b x0 (k :: ks) q ↔ (b.getLsbD (7 - k) = true ∧ q = Fin.ofNat 64 (x0 + k)) ∨ RowCovers b x0 ks q := by
  simp [RowCovers]

/-- What one sprite byte leaves: the covered pixels of its row are inverted, and the collision flag takes in the covered pixels
that were on. -/
theorem drawCols_spec (b : Byte) (row : Fin 32) (x0 : Nat) :
    ∀ (ks : List Nat) (c : Canvas), ks.Nodup → (∀ k ∈ ks, k < 8) →
      (∀ r q, pixel (drawCols b row x0 ks c).display r q = true ↔
        Xor (pixel c.display r q = true) (r = row ∧ RowCovers b x0 ks q)) ∧
      ((drawCols b row x0 ks c).collision = true ↔
        c.collision = true ∨ ∃ q, RowCovers b x0 ks q ∧ pixel c.display row q = true)
  | [], c, _, _ => by
    refine ⟨fun r q => ?_, ?_⟩
    · simp [drawCols, Xor, not_rowCovers_nil]
    · simp [drawCols, not_rowCovers_nil]
  | k :: ks, c, hn, hk => by
    have hnk : k ∉ ks := (List.nodup_cons.1 hn).1
    have hk8 : k < 8 := hk k (by simp)
    have hks : ∀ j ∈ ks, j < 8 := fun j hj => hk j (by simp [hj])
    have ih := drawCols_spec b row x0 ks (if b.getLsbD (7 - k) then c.flip row (Fin.ofNat 64 (x0 + k)) else c)
      (List.nodup_cons.1 hn).2 hks
    -- a column of the rest is never the column just drawn
    have hsep : ∀ q, RowCovers b x0 ks q → q ≠ Fin.ofNat 64 (x0 + k) := by
      rintro q ⟨j, hj, _, rfl⟩ he
      exact hnk (col_inj (hks j hj) hk8 he ▸ hj)
    simp only [drawCols]
    by_cases hb : b.getLsbD (7 - k) = true
    · simp only [hb, if_true] at ih ⊢
      refine ⟨fun r q => ?_, ?_⟩
      · rw [ih.1 r q, rowCovers_cons, Canvas.pixel_flip]
        have hs := hsep q
        by_cases hq : q = Fin.ofNat 64 (x0 + k) <;> by_cases hr : r = row <;> by_cases hc : RowCovers b x0 ks q <;>
          cases pixel c.display r q <;> simp_all [Xor]
      · rw [ih.2, Canvas.collision_flip, Bool.or_eq_true, or_assoc]
        refine or_congr_right ?_
        constructor
        · rintro (h | ⟨q, hc, hp⟩)
          · exact ⟨_, rowCovers_cons.2 (.inl ⟨hb, rfl⟩), h⟩
          · rw [Canvas.pixel_flip, decide_eq_false (fun h => hsep q hc h.2), Bool.xor_false] at hp
            exact ⟨q, rowCovers_cons.2 (.inr hc), hp⟩
        · rintro ⟨q, hc, hp⟩
          rcases rowCovers_cons.1 hc with ⟨_, rfl⟩ | hc'
          · exact .inl hp
          · refine .inr ⟨q, hc', ?_⟩
            rwa [Canvas.pixel_flip, decide_eq_false (fun h => hsep q hc' h.2), Bool.xor_false]
    · have hb' : b.getLsbD (7 - k) = false := by simpa using hb
      simp only [hb', Bool.false_eq_true, if_false] at ih ⊢
      refine ⟨fun r q => ?_, ?_⟩
      · rw [ih.1 r q, rowCovers_cons]
        simp [hb']
      · rw [ih.2]
        simp [rowCovers_cons, hb']

/-! ## The whole sprite -/

/-- Some row of the list of sprite bytes, the first of them row `r0`, covers pixel (row, q). -/
def RowsCover (x0 y0 r0 : Nat) (bs : List Byte) (row : Fin 32) (q : Fin 64) : Prop :=
  ∃ (r : Nat) (b : Byte), bs[r]? = some b ∧ row = Fin.ofNat 32 (y0 + (r0 + r)) ∧ RowCovers b x0 spriteCols q

theorem rowsCover_cons {x0 y0 r0 : Nat} {b : Byte} {bs : List Byte} {row : Fin 32} {q : Fin 64} :
    RowsCover x0 y0 r0 (b :: bs) row q ↔
      (row = Fin.ofNat 32 (y0 + r0) ∧ RowCovers b x0 spriteCols q) ∨ RowsCover x0 y0 (r0 + 1) bs row q := by
  constructor
  · rintro ⟨r, b', hb, hr, hc⟩
    cases r with
    | zero =>
      simp only [List.getElem?_cons_zero, Option.some.injEq] at hb
      subst hb
      exact .inl ⟨hr, hc⟩
    | succ r =>
      refine .inr ⟨r, b', by simpa using hb, ?_, hc⟩
      rw [hr]
      congr 1
      omega
  · rintro (⟨hr, hc⟩ | ⟨r, b', hb, hr, hc⟩)
    · exact ⟨0, b, by simp, by simpa using hr, hc⟩
    · refine ⟨r + 1, b', by simpa using hb, ?_, hc⟩
      rw [hr]
      congr 1
      omega

/-- Rows of a sprite of at most 31 further rows never come back to the row just drawn. -/
theorem rowsCover_ne {x0 y0 r0 : Nat} {bs : List Byte} {row : Fin 32} {q : Fin 64} (hl : bs.length < 32)
    (h : RowsCover x0 y0 (r0 + 1) bs row q) : row ≠ Fin.ofNat 32 (y0 + r0) := by
  obtain ⟨r, b, hb, rfl, _⟩ := h
  have hr : r < bs.length := (List.getElem?_eq_some_iff.1 hb).1
  intro he
  have := congrArg Fin.val he
  simp only [Fin.val_ofNat] at this
  omega

/-- What the sprite bytes leave, in whatever order the loops ran: the covered pixels are inverted, and the collision flag takes in
the covered pixels that were on (R256). -/
theorem drawRows_spec (x0 y0 : Nat) :
    ∀ (bs : List Byte) (r0 : Nat) (c : Canvas), bs.length ≤ 32 →
      (∀ r q, pixel (drawRows x0 y0 r0 bs c).display r q = true ↔
        Xor (pixel c.display r q = true) (RowsCover x0 y0 r0 bs r q)) ∧
      ((drawRows x0 y0 r0 bs c).collision = true ↔
        c.collision = true ∨ ∃ r q, RowsCover x0 y0 r0 bs r q ∧ pixel c.display r q = true)
  | [], r0, c, _ => by
    have hn : ∀ r q, ¬ RowsCover x0 y0 r0 [] r q := by simp [RowsCover]
    refine ⟨fun r q => ?_, ?_⟩
    · simp [drawRows, Xor, hn]
    · simp [drawRows, hn]
  | b :: bs, r0, c, hl => by
    rw [List.length_cons] at hl
    have ih := drawRows_spec x0 y0 bs (r0 + 1) (drawCols b (Fin.ofNat 32 (y0 + r0)) x0 spriteCols c) (by omega)
    obtain ⟨h1, h2⟩ := drawCols_spec b (Fin.ofNat 32 (y0 + r0)) x0 spriteCols c (by decide) (by decide)
    simp only [drawRows]
    refine ⟨fun r q => ?_, ?_⟩
    · rw [ih.1 r q, h1, rowsCover_cons]
      have hs := fun h => rowsCover_ne (q := q) (row := r) (x0 := x0) (y0 := y0) (r0 := r0) (by omega : bs.length < 32) h
      by_cases hr : r = Fin.ofNat 32 (y0 + r0) <;> by_cases hc : RowsCover x0 y0 (r0 + 1) bs r q <;>
        by_cases hq : RowCovers b x0 spriteCols q <;> cases pixel c.display r q <;> simp_all [Xor]
    · rw [ih.2, h2, or_assoc]
      refine or_congr_right ?_
      constructor
      · rintro (⟨q, hq, hp⟩ | ⟨r, q, hc, hp⟩)
        · exact ⟨_, q, rowsCover_cons.2 (.inl ⟨rfl, hq⟩), hp⟩
        · have hs := rowsCover_ne (by omega : bs.length < 32) hc
          rw [h1] at hp
          exact ⟨r, q, rowsCover_cons.2 (.inr hc), (xor_of_not fun h => hs h.1).1 hp⟩
      · rintro ⟨r, q, hc, hp⟩
        rcases rowsCover_cons.1 hc with ⟨rfl, hq⟩ | hc'
        · exact .inl ⟨q, hq, hp⟩
        · have hs := rowsCover_ne (by omega : bs.length < 32) hc'
          refine .inr ⟨r, q, hc', ?_⟩
          rw [h1]
          exact (xor_of_not fun h => hs h.1).2 hp

end Sys2Proof.Machine
end

