-- ==== Sys2Proof/Laws/Encoding.lean ====
section
/-!
SUPPORT. The fields of an assembled word are the fields it was assembled from, and a word is assembled from its fields; what
the round trips of the decoder and the encoder rest on.
-/
namespace Sys2Proof

/-- Two words with the same bits are equal, stated for the 16 positions. -/
theorem word_ext {v w : Word} (h : ∀ i : Nat, i < 16 → v.getLsbD i = w.getLsbD i) : v = w :=
  BitVec.eq_of_getLsbD_eq h

/-! ## The bits of assembled words -/

theorem getLsbD_wordNNN (op : Nibble) (nnn : Addr12) (i : Nat) :
    (wordNNN op nnn).getLsbD i = if i < 12 then nnn.getLsbD i else op.getLsbD (i - 12) :=
  BitVec.getLsbD_append

theorem getLsbD_wordXKK (op x : Nibble) (kk : Byte) (i : Nat) :
    (wordXKK op x kk).getLsbD i =
      if i < 12 then (if i < 8 then kk.getLsbD i else x.getLsbD (i - 8)) else op.getLsbD (i - 12) := by
  have h : (x ++ kk : BitVec 12).getLsbD i = if i < 8 then kk.getLsbD i else x.getLsbD (i - 8) := BitVec.getLsbD_append
  rw [← h]
  exact BitVec.getLsbD_append

theorem getLsbD_wordXYN (op x y n : Nibble) (i : Nat) :
    (wordXYN op x y n).getLsbD i =
      if i < 12 then (if i < 8 then (if i < 4 then n.getLsbD i else y.getLsbD (i - 4)) else x.getLsbD (i - 8))
      else op.getLsbD (i - 12) := by
  have h : (y ++ n : BitVec 8).getLsbD i = if i < 4 then n.getLsbD i else y.getLsbD (i - 4) := BitVec.getLsbD_append
  rw [← h]
  exact getLsbD_wordXKK op x (y ++ n) i

theorem getLsbD_wordOfBytes (hi lo : Byte) (i : Nat) :
    (wordOfBytes hi lo).getLsbD i = if i < 8 then lo.getLsbD i else hi.getLsbD (i - 8) :=
  BitVec.getLsbD_append

/-! ## Fields of assembled words -/

@[simp] theorem opField_wordNNN (op : Nibble) (nnn : Addr12) : opField (wordNNN op nnn) = op :=
  BitVec.extractLsb'_append_eq_left

@[simp] theorem nnnField_wordNNN (op : Nibble) (nnn : Addr12) : nnnField (wordNNN op nnn) = nnn :=
  BitVec.extractLsb'_append_eq_right

@[simp] theorem opField_wordXKK (op x : Nibble) (kk : Byte) : opField (wordXKK op x kk) = op :=
  BitVec.extractLsb'_append_eq_left

@[simp] theorem opField_wordXYN (op x y n : Nibble) : opField (wordXYN op x y n) = op :=
  BitVec.extractLsb'_append_eq_left

@[simp] theorem xField_wordXKK (op x : Nibble) (kk : Byte) : xField (wordXKK op x kk) = x := by
  apply BitVec.eq_of_getLsbD_eq
  intro i hi
  have h : 8 + i < 12 := by omega
  simp [xField, getLsbD_wordXKK, hi, h]

@[simp] theorem kkField_wordXKK (op x : Nibble) (kk : Byte) : kkField (wordXKK op x kk) = kk := by
  apply BitVec.eq_of_getLsbD_eq
  intro i hi
  have h : i < 12 := by omega
  simp [kkField, getLsbD_wordXKK, hi, h]

@[simp] theorem xField_wordXYN (op x y n : Nibble) : xField (wordXYN op x y n) = x :=
  xField_wordXKK op x (y ++ n)

@[simp] theorem yField_wordXYN (op x y n : Nibble) : yField (wordXYN op x y n) = y := by
  apply BitVec.eq_of_getLsbD_eq
  intro i hi
  have h1 : 4 + i < 12 := by omega
  have h2 : 4 + i < 8 := by omega
  simp [yField, getLsbD_wordXYN, hi, h1, h2]

@[simp] theorem nField_wordXYN (op x y n : Nibble) : nField (wordXYN op x y n) = n := by
  apply BitVec.eq_of_getLsbD_eq
  intro i hi
  have h1 : i < 12 := by omega
  have h2 : i < 8 := by omega
  simp [nField, getLsbD_wordXYN, hi, h1, h2]

/-! ## Words assembled from their fields -/

/-- A word is its family and its address field. -/
theorem wordNNN_fields (w : Word) : wordNNN (opField w) (nnnField w) = w := by
  apply word_ext
  intro i hi
  rw [getLsbD_wordNNN]
  split_ifs with h
  · simp [nnnField, h]
  · rw [opField, BitVec.getLsbD_extractLsb', show 12 + (i - 12) = i by omega]
    simp [show i - 12 < 4 by omega]

/-- A word is its family, its `x` and its low byte. -/
theorem wordXKK_fields (w : Word) : wordXKK (opField w) (xField w) (kkField w) = w := by
  apply word_ext
  intro i hi
  rw [getLsbD_wordXKK]
  split_ifs with h h8
  · simp [kkField, h8]
  · rw [xField, BitVec.getLsbD_extractLsb', show 8 + (i - 8) = i by omega]
    simp [show i - 8 < 4 by omega]
  · rw [opField, BitVec.getLsbD_extractLsb', show 12 + (i - 12) = i by omega]
    simp [show i - 12 < 4 by omega]

/-- A word is its four nibbles. -/
theorem wordXYN_fields (w : Word) : wordXYN (opField w) (xField w) (yField w) (nField w) = w := by
  apply word_ext
  intro i hi
  rw [getLsbD_wordXYN]
  split_ifs with h h8 h4
  · simp [nField, h4]
  · rw [yField, BitVec.getLsbD_extractLsb', show 4 + (i - 4) = i by omega]
    simp [show i - 4 < 4 by omega]
  · rw [xField, BitVec.getLsbD_extractLsb', show 8 + (i - 8) = i by omega]
    simp [show i - 8 < 4 by omega]
  · rw [opField, BitVec.getLsbD_extractLsb', show 12 + (i - 12) = i by omega]
    simp [show i - 12 < 4 by omega]

/-- The bytes of a word make the word again. -/
@[simp] theorem wordOfBytes_bytes (w : Word) : wordOfBytes (highByte w) (lowByte w) = w := by
  apply word_ext
  intro i hi
  rw [getLsbD_wordOfBytes]
  split_ifs with h
  · simp [lowByte, h]
  · rw [highByte, BitVec.getLsbD_extractLsb', show 8 + (i - 8) = i by omega]
    simp [show i - 8 < 8 by omega]

/-! ## Masks -/

theorem nibble_and_ones (x : Nibble) : x &&& 0xF#4 = x := BitVec.and_allOnes

theorem byte_and_ones (b : Byte) : b &&& 0xFF#8 = b := BitVec.and_allOnes

/-- A word of format `NNN` under the mask of its family nibble. -/
theorem wordNNN_mask (op : Nibble) (nnn : Addr12) : wordNNN op nnn &&& 0xF000#16 = wordNNN op 0#12 := by
  have e : (0xF000#16 : Word) = (0xF#4 ++ 0#12 : BitVec 16) := rfl
  rw [wordNNN, wordNNN, e, BitVec.and_append, nibble_and_ones, BitVec.and_zero]

/-- A word of format `XKK` under the mask of its family nibble. -/
theorem wordXKK_mask_op (op x : Nibble) (kk : Byte) : wordXKK op x kk &&& 0xF000#16 = wordNNN op 0#12 :=
  wordNNN_mask op (x ++ kk)

/-- A word of format `XYN` under the mask of its family nibble. -/
theorem wordXYN_mask_op (op x y n : Nibble) : wordXYN op x y n &&& 0xF000#16 = wordNNN op 0#12 :=
  wordNNN_mask op (x ++ (y ++ n : BitVec 8))

/-- A word of format `XFN` under the mask of its family nibble and low byte. -/
theorem wordXKK_mask_kk (op x : Nibble) (kk : Byte) : wordXKK op x kk &&& 0xF0FF#16 = wordXKK op 0#4 kk := by
  have e : (0xF0FF#16 : Word) = (0xF#4 ++ (0#4 ++ 0xFF#8 : BitVec 12) : BitVec 16) := rfl
  rw [wordXKK, wordXKK, e, BitVec.and_append, BitVec.and_append, nibble_and_ones, byte_and_ones, BitVec.and_zero]

/-- A word of format `XYN` under the mask of its family nibble and `n`. -/
theorem wordXYN_mask_n (op x y n : Nibble) : wordXYN op x y n &&& 0xF00F#16 = wordXYN op 0#4 0#4 n := by
  have e : (0xF00F#16 : Word) = (0xF#4 ++ (0#4 ++ (0#4 ++ 0xF#4 : BitVec 8) : BitVec 12) : BitVec 16) := rfl
  rw [wordXYN, wordXYN, e, BitVec.and_append, BitVec.and_append, BitVec.and_append, nibble_and_ones, nibble_and_ones,
    BitVec.and_zero, BitVec.and_zero]

/-! ## The decoder, family by family -/

theorem decode_op0 {w : Word} (h : opField w = 0x0#4) : decode w = decodeFamily0 w := by
  simp [decode, h]
theorem decode_op1 {w : Word} (h : opField w = 0x1#4) : decode w = .instr (.jp (nnnField w)) := by
  simp [decode, h]
theorem decode_op2 {w : Word} (h : opField w = 0x2#4) : decode w = .instr (.call (nnnField w)) := by
  simp [decode, h]
theorem decode_op3 {w : Word} (h : opField w = 0x3#4) : decode w = .instr (.seImm (xField w) (kkField w)) := by
  simp [decode, h]
theorem decode_op4 {w : Word} (h : opField w = 0x4#4) : decode w = .instr (.sneImm (xField w) (kkField w)) := by
  simp [decode, h]
theorem decode_op5 {w : Word} (h : opField w = 0x5#4) : decode w = decodeFamily5 w := by
  simp [decode, h]
theorem decode_op6 {w : Word} (h : opField w = 0x6#4) : decode w = .instr (.ldImm (xField w) (kkField w)) := by
  simp [decode, h]
theorem decode_op7 {w : Word} (h : opField w = 0x7#4) : decode w = .instr (.addImm (xField w) (kkField w)) := by
  simp [decode, h]
theorem decode_op8 {w : Word} (h : opField w = 0x8#4) : decode w = decodeFamily8 w := by
  simp [decode, h]
theorem decode_op9 {w : Word} (h : opField w = 0x9#4) : decode w = decodeFamily9 w := by
  simp [decode, h]
theorem decode_opA {w : Word} (h : opField w = 0xA#4) : decode w = .instr (.ldI (nnnField w)) := by
  simp [decode, h]
theorem decode_opB {w : Word} (h : opField w = 0xB#4) : decode w = .instr (.jpV0 (nnnField w)) := by
  simp [decode, h]
theorem decode_opC {w : Word} (h : opField w = 0xC#4) : decode w = .instr (.rnd (xField w) (kkField w)) := by
  simp [decode, h]
theorem decode_opD {w : Word} (h : opField w = 0xD#4) : decode w = .instr (.drw (xField w) (yField w) (nField w)) := by
  simp [decode, h]
theorem decode_opE {w : Word} (h : opField w = 0xE#4) : decode w = decodeFamilyE w := by
  simp [decode, h]
theorem decode_opF {w : Word} (h : opField w = 0xF#4) : decode w = decodeFamilyF w := by
  simp [decode, h]

/-- The sixteen families. -/
theorem opField_cases (w : Word) :
    opField w = 0x0#4 ∨ opField w = 0x1#4 ∨ opField w = 0x2#4 ∨ opField w = 0x3#4 ∨ opField w = 0x4#4 ∨ opField w = 0x5#4 ∨
    opField w = 0x6#4 ∨ opField w = 0x7#4 ∨ opField w = 0x8#4 ∨ opField w = 0x9#4 ∨ opField w = 0xA#4 ∨ opField w = 0xB#4 ∨
    opField w = 0xC#4 ∨ opField w = 0xD#4 ∨ opField w = 0xE#4 ∨ opField w = 0xF#4 := by
  generalize opField w = o
  revert o
  decide

end Sys2Proof
end

