-- ==== Sys2Proof/Laws/Memory.lean ====
section
/-!
SUPPORT. The laws of memory: a read after a write to the same address gives the byte written, a write leaves every other
address alone, and every operation keeps the canonical form.
-/
namespace Sys2Proof.Machine

/-! ## The canonical form -/

theorem Memory.wfFrom_cons {lo a : Nat} {b : Byte} {rest : Memory} :
    Memory.wfFrom lo ((a, b) :: rest) = true ↔
      lo ≤ a ∧ a < Config.memorySize ∧ b ≠ Memory.unlisted ∧ Memory.wfFrom (a + 1) rest = true := by
  simp [Memory.wfFrom, and_assoc]

/-- A memory whose entries lie at `hi` or above is one whose entries lie at a lower address or above. -/
theorem Memory.wfFrom_le {lo hi : Nat} (h : lo ≤ hi) : ∀ {m : Memory}, Memory.wfFrom hi m = true → Memory.wfFrom lo m = true
  | [], _ => rfl
  | (a, b) :: rest, hm => by
    rw [Memory.wfFrom_cons] at hm ⊢
    exact ⟨h.trans hm.1, hm.2⟩

/-- An address below every entry is not listed. -/
theorem Memory.read_below {a lo : Nat} (h : a < lo) :
    ∀ {m : Memory}, Memory.wfFrom lo m = true → Memory.read m a = Memory.unlisted
  | [], _ => rfl
  | (c, b) :: rest, hm => by
    rw [Memory.wfFrom_cons] at hm
    have hc : a ≠ c := by omega
    simpa [Memory.read, hc] using Memory.read_below (by omega : a < c + 1) hm.2.2.2

/-- A write inside the address space keeps the canonical form. -/
theorem Memory.wfFrom_write {a : Nat} {b : Byte} (ha : a < Config.memorySize) :
    ∀ {lo : Nat} {m : Memory}, lo ≤ a → Memory.wfFrom lo m = true → Memory.wfFrom lo (Memory.write m a b) = true
  | lo, [], hlo, _ => by
    by_cases hb : b = Memory.unlisted
    · simp [Memory.write, hb, Memory.wfFrom]
    · simp [Memory.write, hb, Memory.wfFrom, hlo, ha]
  | lo, (c, d) :: rest, hlo, hm => by
    rw [Memory.wfFrom_cons] at hm
    obtain ⟨h1, h2, h3, h4⟩ := hm
    unfold Memory.write
    split_ifs with hac hb hEq hb
    · exact Memory.wfFrom_cons.2 ⟨h1, h2, h3, h4⟩
    · exact Memory.wfFrom_cons.2 ⟨hlo, ha, hb, Memory.wfFrom_cons.2 ⟨hac, h2, h3, h4⟩⟩
    · exact Memory.wfFrom_le (by omega) h4
    · subst hEq
      exact Memory.wfFrom_cons.2 ⟨hlo, ha, hb, h4⟩
    · exact Memory.wfFrom_cons.2 ⟨h1, h2, h3, Memory.wfFrom_write ha (by omega) h4⟩

/-- `Memory.write` keeps the canonical form. -/
theorem Memory.wf_write {m : Memory} {a : Nat} {b : Byte} (ha : a < Config.memorySize) (h : m.wf = true) :
    (Memory.write m a b).wf = true :=
  Memory.wfFrom_write ha (Nat.zero_le a) h

/-- `Memory.writeBytes` keeps the canonical form. -/
theorem Memory.wf_writeBytes : ∀ {bs : List Byte} {m : Memory} {a : Nat},
    a + bs.length ≤ Config.memorySize → m.wf = true → (Memory.writeBytes m a bs).wf = true
  | [], _, _, _, h => h
  | _ :: bs, m, a, hl, h => by
    rw [List.length_cons] at hl
    exact Memory.wf_writeBytes (bs := bs) (by omega) (Memory.wf_write (by omega) h)

/-- The reset memory is canonical. -/
theorem Memory.wf_reset : State.reset.mem.wf = true := rfl

/-! ## Reads and writes of one byte -/

/-- A write leaves every other address alone, in any memory. -/
theorem Memory.read_write_other {a c : Nat} (b : Byte) (h : c ≠ a) :
    ∀ m : Memory, Memory.read (Memory.write m a b) c = Memory.read m c
  | [] => by
    by_cases hb : b = Memory.unlisted <;> simp [Memory.write, Memory.read, hb, h]
  | (d, e) :: rest => by
    unfold Memory.write
    split_ifs with hac hb hEq hb
    · rfl
    · simp [Memory.read, h]
    · subst hEq; simp [Memory.read, h]
    · subst hEq; simp [Memory.read, h]
    · by_cases hcd : c = d
      · simp [Memory.read, hcd]
      · simpa [Memory.read, hcd] using Memory.read_write_other b h rest

/-- A read after a write to the same address gives the byte written. -/
theorem Memory.read_write_same {a : Nat} (b : Byte) :
    ∀ {lo : Nat} {m : Memory}, Memory.wfFrom lo m = true → Memory.read (Memory.write m a b) a = b
  | _, [], _ => by
    by_cases hb : b = Memory.unlisted <;> simp [Memory.write, Memory.read, hb]
  | lo, (d, e) :: rest, hm => by
    rw [Memory.wfFrom_cons] at hm
    obtain ⟨_, _, _, h4⟩ := hm
    unfold Memory.write
    split_ifs with hac hb hEq hb
    · have hn : a ≠ d := by omega
      simpa [Memory.read, hn, hb] using Memory.read_below (by omega : a < d + 1) h4
    · simp [Memory.read]
    · simpa [hb] using Memory.read_below (by omega : a < d + 1) h4
    · simp [Memory.read]
    · simpa [Memory.read, hEq] using Memory.read_write_same b h4

/-- Both in one: the byte at `c` after `b` is written at `a`. -/
theorem Memory.read_write {m : Memory} (h : m.wf = true) (a c : Nat) (b : Byte) :
    Memory.read (Memory.write m a b) c = if c = a then b else Memory.read m c := by
  by_cases hc : c = a
  · subst hc; simpa using Memory.read_write_same b h
  · simpa [hc] using Memory.read_write_other b hc m

/-! ## Ranges of bytes -/

@[simp] theorem Memory.length_readBytes (m : Memory) : ∀ (n a : Nat), (Memory.readBytes m a n).length = n
  | 0, _ => rfl
  | n + 1, a => by simp [Memory.readBytes, Memory.length_readBytes m n]

/-- The `k`-th byte of a range is the byte at its address. -/
theorem Memory.getElem?_readBytes (m : Memory) :
    ∀ (n a k : Nat), k < n → (Memory.readBytes m a n)[k]? = some (Memory.read m (a + k))
  | n + 1, a, 0, _ => by simp [Memory.readBytes]
  | n + 1, a, k + 1, h => by
    have := Memory.getElem?_readBytes m n (a + 1) k (by omega)
    simpa [Memory.readBytes, Nat.add_assoc, Nat.add_comm 1 k] using this

/-- A store of a range leaves every address outside it alone, in any memory. -/
theorem Memory.read_writeBytes_other {c : Nat} :
    ∀ (bs : List Byte) (m : Memory) (a : Nat), (c < a ∨ a + bs.length ≤ c) →
      Memory.read (Memory.writeBytes m a bs) c = Memory.read m c
  | [], _, _, _ => rfl
  | b :: bs, m, a, h => by
    rw [List.length_cons] at h
    rw [Memory.writeBytes, Memory.read_writeBytes_other bs _ (a + 1) (by omega)]
    exact Memory.read_write_other b (by omega) m

/-- A store of a range inside memory leaves the `k`-th byte at its address. -/
theorem Memory.read_writeBytes_in :
    ∀ (bs : List Byte) (m : Memory) (a k : Nat), m.wf = true → a + bs.length ≤ Config.memorySize → (hk : k < bs.length) →
      Memory.read (Memory.writeBytes m a bs) (a + k) = bs[k]
  | b :: bs, m, a, 0, hm, _, _ => by
    rw [Memory.writeBytes, Memory.read_writeBytes_other bs _ (a + 1) (by omega)]
    simpa using Memory.read_write_same b hm
  | b :: bs, m, a, k + 1, hm, hl, hk => by
    rw [List.length_cons] at hl
    have := Memory.read_writeBytes_in bs (Memory.write m a b) (a + 1) k (Memory.wf_write (by omega) hm) (by omega)
      (by simpa using hk)
    simpa [Memory.writeBytes, Nat.add_assoc, Nat.add_comm 1 k] using this

/-! ## The machine's memory -/

/-- A store leaves every byte outside its range alone. -/
theorem State.readByte_writeBytes_other (s : State) (a c : Nat) (bs : List Byte) (h : c < a ∨ a + bs.length ≤ c) :
    (s.writeBytes a bs).readByte c = s.readByte c :=
  Memory.read_writeBytes_other bs s.mem a h

/-- A store leaves the `k`-th byte at its address. -/
theorem State.readByte_writeBytes_in (s : State) (a k : Nat) (bs : List Byte) (hm : s.mem.wf = true)
    (hl : a + bs.length ≤ Config.memorySize) (hk : k < bs.length) :
    (s.writeBytes a bs).readByte (a + k) = bs[k] :=
  Memory.read_writeBytes_in bs s.mem a k hm hl hk

end Sys2Proof.Machine
end

