-- ==== Sys2Proof/Laws/Operations.lean ====
section
/-!
SUPPORT. One law for each shared operation of the meanings: skips, lists of registers, the lowest key down, the order of result
and flag, the two checks, and the entropy byte.
-/
namespace Sys2Proof.Machine

/-! ## Operations that are updates in disguise -/

/-- A skip writes `pc` only: the address after the skipped word if it is taken, the one it has if not. -/
@[simp] theorem skipIf_eq (cond : Bool) (s : State) : skipIf cond s = s.writePc (if cond then s.pc + 2#16 else s.pc) := by
  cases cond <;> rfl

/-- Result, then flag. -/
@[simp] theorem writeResultAndFlag_eq (x : Nibble) (rf : Byte × Byte) (s : State) :
    writeResultAndFlag x rf s = (s.writeV x rf.1).writeV 0xF#4 rf.2 := rfl

/-- Every register after a result and a flag are written: VF holds the flag whatever `x` is (R210). -/
theorem readV_writeResultAndFlag (x y : Nibble) (rf : Byte × Byte) (s : State) :
    (writeResultAndFlag x rf s).readV y = if y = 0xF#4 then rf.2 else if y = x then rf.1 else s.readV y := by
  rw [writeResultAndFlag_eq, State.readV_writeV, State.readV_writeV]

@[simp] theorem randomMasked_eq (r : Byte) (x : Nibble) (kk : Byte) (s : State) :
    randomMasked r x kk s = s.countEntropy.writeV x (r &&& kk) := rfl

/-! ## The checks -/

/-- An access through `I` whose range lies in memory goes on. -/
theorem withRange_in {s : State} {last : Nat} (k : Host.Outcome State Fault Refusal)
    (h : s.i.toNat + last < Config.memorySize) : withRange s last k = k := by
  simp only [withRange]
  exact if_neg (by omega)

/-- An access through `I` whose range leaves memory is an error, whatever it would have done. -/
theorem withRange_out {s : State} {last : Nat} (k : Host.Outcome State Fault Refusal)
    (h : Config.memorySize ≤ s.i.toNat + last) : withRange s last k = .fault (.outOfBounds .memory s.i) := by
  simp only [withRange, raise]
  exact if_pos h

/-- An index below 16 is used. -/
theorem withIndex_in {src : AccessSource} {b : Byte} (k : Nibble → Host.Outcome State Fault Refusal)
    (h : b.toNat ≤ 0xF) : withIndex src b k = k (b.setWidth 4) := by
  simp only [withIndex]
  exact if_neg (by omega)

/-- An index of 16 or more is an error. -/
theorem withIndex_out {src : AccessSource} {b : Byte} (k : Nibble → Host.Outcome State Fault Refusal)
    (h : 0xF < b.toNat) : withIndex src b k = .fault (.outOfBounds src (b.setWidth 16)) := by
  simp only [withIndex, raise]
  exact if_pos h

/-! ## Lists of registers -/

@[simp] theorem State.length_readRegs (s : State) : ∀ (n k : Nat), (s.readRegs k n).length = n
  | 0, _ => rfl
  | n + 1, k => by simp [State.readRegs, State.length_readRegs s n]

/-- The `j`-th of a list of registers. -/
theorem State.getElem?_readRegs (s : State) :
    ∀ (n k j : Nat), j < n → (s.readRegs k n)[j]? = some (s.readV (BitVec.ofNat 4 (k + j)))
  | n + 1, k, 0, _ => by simp [State.readRegs]
  | n + 1, k, j + 1, h => by
    have := State.getElem?_readRegs s n (k + 1) j (by omega)
    simpa [State.readRegs, Nat.add_assoc, Nat.add_comm 1 j] using this

/-- Writing a list of registers writes nothing but registers. -/
theorem State.writeRegs_eq : ∀ (bs : List Byte) (s : State) (k : Nat),
    s.writeRegs k bs = { s with v := (s.writeRegs k bs).v }
  | [], _, _ => rfl
  | b :: bs, s, k => by
    rw [State.writeRegs, State.writeRegs_eq bs]
    rfl

@[simp] theorem State.writeRegs_mem (s : State) (k : Nat) (bs : List Byte) : (s.writeRegs k bs).mem = s.mem := by
  rw [State.writeRegs_eq]
@[simp] theorem State.writeRegs_i (s : State) (k : Nat) (bs : List Byte) : (s.writeRegs k bs).i = s.i := by
  rw [State.writeRegs_eq]
@[simp] theorem State.writeRegs_pc (s : State) (k : Nat) (bs : List Byte) : (s.writeRegs k bs).pc = s.pc := by
  rw [State.writeRegs_eq]
@[simp] theorem State.writeRegs_sp (s : State) (k : Nat) (bs : List Byte) : (s.writeRegs k bs).sp = s.sp := by
  rw [State.writeRegs_eq]
@[simp] theorem State.writeRegs_stack (s : State) (k : Nat) (bs : List Byte) : (s.writeRegs k bs).stack = s.stack := by
  rw [State.writeRegs_eq]
@[simp] theorem State.writeRegs_dt (s : State) (k : Nat) (bs : List Byte) : (s.writeRegs k bs).dt = s.dt := by
  rw [State.writeRegs_eq]
@[simp] theorem State.writeRegs_st (s : State) (k : Nat) (bs : List Byte) : (s.writeRegs k bs).st = s.st := by
  rw [State.writeRegs_eq]
@[simp] theorem State.writeRegs_keypad (s : State) (k : Nat) (bs : List Byte) : (s.writeRegs k bs).keypad = s.keypad := by
  rw [State.writeRegs_eq]
@[simp] theorem State.writeRegs_display (s : State) (k : Nat) (bs : List Byte) :
    (s.writeRegs k bs).display = s.display := by
  rw [State.writeRegs_eq]
@[simp] theorem State.writeRegs_entropyCount (s : State) (k : Nat) (bs : List Byte) :
    (s.writeRegs k bs).entropyCount = s.entropyCount := by
  rw [State.writeRegs_eq]
@[simp] theorem State.keyDown_writeRegs (s : State) (k : Nat) (bs : List Byte) (q : Nibble) :
    (s.writeRegs k bs).keyDown q = s.keyDown q := by
  simp [State.keyDown]
@[simp] theorem State.stackAt_writeRegs (s : State) (k : Nat) (bs : List Byte) (j : Nibble) :
    (s.writeRegs k bs).stackAt j = s.stackAt j := by
  simp [State.stackAt]
@[simp] theorem State.readByte_writeRegs (s : State) (k : Nat) (bs : List Byte) (a : Nat) :
    (s.writeRegs k bs).readByte a = s.readByte a := by
  simp [State.readByte]

/-- A register outside the list keeps its value. -/
theorem State.readV_writeRegs_other {y : Nibble} :
    ∀ (bs : List Byte) (s : State) (k : Nat), k + bs.length ≤ 16 → (y.toNat < k ∨ k + bs.length ≤ y.toNat) →
      (s.writeRegs k bs).readV y = s.readV y
  | [], _, _, _, _ => rfl
  | b :: bs, s, k, hl, h => by
    rw [List.length_cons] at hl h
    rw [State.writeRegs, State.readV_writeRegs_other bs _ (k + 1) (by omega) (by omega)]
    refine State.readV_writeV_other s _ y b ?_
    intro he
    have : y.toNat = k := by
      rw [he, BitVec.toNat_ofNat]
      exact Nat.mod_eq_of_lt (by omega)
    omega

/-- The `j`-th register of the list holds the `j`-th byte. -/
theorem State.readV_writeRegs_in :
    ∀ (bs : List Byte) (s : State) (k j : Nat), k + bs.length ≤ 16 → (hj : j < bs.length) →
      (s.writeRegs k bs).readV (BitVec.ofNat 4 (k + j)) = bs[j]
  | b :: bs, s, k, 0, hl, _ => by
    rw [List.length_cons] at hl
    have hk : (BitVec.ofNat 4 (k + 0)).toNat = k := by
      rw [BitVec.toNat_ofNat]
      exact Nat.mod_eq_of_lt (by omega)
    rw [State.writeRegs, State.readV_writeRegs_other bs _ (k + 1) (by omega) (by omega)]
    simp
  | b :: bs, s, k, j + 1, hl, hj => by
    rw [List.length_cons] at hl
    have := State.readV_writeRegs_in bs (s.writeV (BitVec.ofNat 4 k) b) (k + 1) j (by omega) (by simpa using hj)
    simpa [State.writeRegs, Nat.add_assoc, Nat.add_comm 1 j] using this

/-! ## Keys -/

theorem mem_allKeys (k : Nibble) : k ∈ allKeys := by
  revert k
  decide

/-- No key is down exactly when the search finds none. -/
theorem State.lowestKeyDown_none (s : State) : s.lowestKeyDown = none ↔ ∀ k : Nibble, s.keyDown k = false := by
  simp only [State.lowestKeyDown, List.find?_eq_none]
  exact ⟨fun h k => by simpa using h k (mem_allKeys k), fun h k _ => by simp [h k]⟩

theorem allKeys_sorted : allKeys.Pairwise (fun a b => a.toNat < b.toNat) := by decide

/-- The key found is down, and every key below it is up. -/
theorem State.lowestKeyDown_some {s : State} {k : Nibble} (h : s.lowestKeyDown = some k) :
    s.keyDown k = true ∧ ∀ j : Nibble, j.toNat < k.toNat → s.keyDown j = false := by
  obtain ⟨hk, as, bs, he, ha⟩ := List.find?_eq_some_iff_append.1 h
  refine ⟨hk, fun j hj => ?_⟩
  have hm : j ∈ as ++ k :: bs := he ▸ mem_allKeys j
  have hp : (as ++ k :: bs).Pairwise (fun a b => a.toNat < b.toNat) := he ▸ allKeys_sorted
  rcases List.mem_append.1 hm with hj' | hj'
  · simpa using ha j hj'
  · rcases List.mem_cons.1 hj' with rfl | hb
    · omega
    · have := (List.pairwise_cons.1 (List.pairwise_append.1 hp).2.1).1 j hb
      omega

end Sys2Proof.Machine
end

