-- ==== Sys2Proof/Laws/PerInstr.lean ====
section
/-!
SUPPORT. Facts for all instructions, one lemma per constructor. Family `Row`: the encoding of an instruction has the fixed bits
of its row of spec/opcode_table.json (its `match` under its `mask`), whatever its operands.
-/
namespace Sys2Proof.Laws.Row

/-- The encoding under the row's mask is the row's match. -/
def Statement (i : Instr) : Prop := encode i &&& i.row.1 = i.row.2

theorem sys (nnn : Addr12) : Statement (.sys nnn) := wordNNN_mask 0x0#4 nnn
theorem cls : Statement .cls := rfl
theorem ret : Statement .ret := rfl
theorem jp (nnn : Addr12) : Statement (.jp nnn) := wordNNN_mask 0x1#4 nnn
theorem call (nnn : Addr12) : Statement (.call nnn) := wordNNN_mask 0x2#4 nnn
theorem seImm (x : Nibble) (kk : Byte) : Statement (.seImm x kk) := wordXKK_mask_op 0x3#4 x kk
theorem sneImm (x : Nibble) (kk : Byte) : Statement (.sneImm x kk) := wordXKK_mask_op 0x4#4 x kk
theorem seReg (x y : Nibble) : Statement (.seReg x y) := wordXYN_mask_n 0x5#4 x y 0x0#4
theorem ldImm (x : Nibble) (kk : Byte) : Statement (.ldImm x kk) := wordXKK_mask_op 0x6#4 x kk
theorem addImm (x : Nibble) (kk : Byte) : Statement (.addImm x kk) := wordXKK_mask_op 0x7#4 x kk
theorem ldReg (x y : Nibble) : Statement (.ldReg x y) := wordXYN_mask_n 0x8#4 x y 0x0#4
theorem orReg (x y : Nibble) : Statement (.orReg x y) := wordXYN_mask_n 0x8#4 x y 0x1#4
theorem andReg (x y : Nibble) : Statement (.andReg x y) := wordXYN_mask_n 0x8#4 x y 0x2#4
theorem xorReg (x y : Nibble) : Statement (.xorReg x y) := wordXYN_mask_n 0x8#4 x y 0x3#4
theorem addReg (x y : Nibble) : Statement (.addReg x y) := wordXYN_mask_n 0x8#4 x y 0x4#4
theorem sub (x y : Nibble) : Statement (.sub x y) := wordXYN_mask_n 0x8#4 x y 0x5#4
theorem shr (x y : Nibble) : Statement (.shr x y) := wordXYN_mask_n 0x8#4 x y 0x6#4
theorem subn (x y : Nibble) : Statement (.subn x y) := wordXYN_mask_n 0x8#4 x y 0x7#4
theorem shl (x y : Nibble) : Statement (.shl x y) := wordXYN_mask_n 0x8#4 x y 0xE#4
theorem sneReg (x y : Nibble) : Statement (.sneReg x y) := wordXYN_mask_n 0x9#4 x y 0x0#4
theorem ldI (nnn : Addr12) : Statement (.ldI nnn) := wordNNN_mask 0xA#4 nnn
theorem jpV0 (nnn : Addr12) : Statement (.jpV0 nnn) := wordNNN_mask 0xB#4 nnn
theorem rnd (x : Nibble) (kk : Byte) : Statement (.rnd x kk) := wordXKK_mask_op 0xC#4 x kk
theorem drw (x y n : Nibble) : Statement (.drw x y n) := wordXYN_mask_op 0xD#4 x y n
theorem skp (x : Nibble) : Statement (.skp x) := wordXKK_mask_kk 0xE#4 x 0x9E#8
theorem sknp (x : Nibble) : Statement (.sknp x) := wordXKK_mask_kk 0xE#4 x 0xA1#8
theorem ldVDt (x : Nibble) : Statement (.ldVDt x) := wordXKK_mask_kk 0xF#4 x 0x07#8
theorem ldVK (x : Nibble) : Statement (.ldVK x) := wordXKK_mask_kk 0xF#4 x 0x0A#8
theorem ldDtV (x : Nibble) : Statement (.ldDtV x) := wordXKK_mask_kk 0xF#4 x 0x15#8
theorem ldStV (x : Nibble) : Statement (.ldStV x) := wordXKK_mask_kk 0xF#4 x 0x18#8
theorem addIV (x : Nibble) : Statement (.addIV x) := wordXKK_mask_kk 0xF#4 x 0x1E#8
theorem ldFV (x : Nibble) : Statement (.ldFV x) := wordXKK_mask_kk 0xF#4 x 0x29#8
theorem ldBV (x : Nibble) : Statement (.ldBV x) := wordXKK_mask_kk 0xF#4 x 0x33#8
theorem ldMemV (x : Nibble) : Statement (.ldMemV x) := wordXKK_mask_kk 0xF#4 x 0x55#8
theorem ldVMem (x : Nibble) : Statement (.ldVMem x) := wordXKK_mask_kk 0xF#4 x 0x65#8

end Sys2Proof.Laws.Row
end

