-- ==== Sys2Proof/Laws/Step.lean ====
section
/-!
SUPPORT. What one cycle can do, said once: the fetch unit's two answers, the inversion of `step`, what `cycle` pairs with each
outcome, and that a word placed with `withFetchWord` is the word fetched.
-/
namespace Sys2Proof.Machine

theorem State.fetchable_iff (s : State) : s.fetchable = true ↔ s.pc.toNat ≤ 0xFFE :=
  decide_eq_true_iff

theorem fetchWord_in {s : State} (h : s.fetchable = true) : fetchWord s = .ok s.wordAtPc := by
  simp [fetchWord, h]

theorem fetchWord_out {s : State} (h : s.fetchable = false) : fetchWord s = .error (.outOfBounds .fetch s.pc) := by
  simp [fetchWord, h]

/-- A cycle that completes fetched a word that decodes to an instruction, and ran that instruction on the advanced state. -/
theorem step_next {s t : State} (h : step s = .next t) :
    ∃ i, s.fetchable = true ∧ decode s.wordAtPc = .instr i ∧ exec i s.advancePc = .next t := by
  unfold step at h
  by_cases hf : s.fetchable = true
  · rw [fetchWord_in hf] at h
    cases hd : decode s.wordAtPc with
    | instr i => exact ⟨i, hf, rfl, by simpa only [hd] using h⟩
    | unrecognized u => simp [hd, raise] at h
  · rw [fetchWord_out (by simpa using hf)] at h
    simp [raise] at h

/-- A cycle that ends in an error failed at the fetch, at the decoder or in the instruction, in that order. -/
theorem step_fault {s : State} {e : Fault} (h : step s = .fault e) :
    (s.fetchable = false ∧ e = .outOfBounds .fetch s.pc) ∨
      (s.fetchable = true ∧ ∃ u, decode s.wordAtPc = .unrecognized u ∧ e = .unrecognizedInstruction u) ∨
        (s.fetchable = true ∧ ∃ i, decode s.wordAtPc = .instr i ∧ exec i s.advancePc = .fault e) := by
  unfold step at h
  by_cases hf : s.fetchable = true
  · rw [fetchWord_in hf] at h
    cases hd : decode s.wordAtPc with
    | instr i => exact .inr (.inr ⟨hf, i, rfl, by simpa only [hd] using h⟩)
    | unrecognized u =>
      simp only [hd, raise, Host.Outcome.fault.injEq] at h
      exact .inr (.inl ⟨hf, u, rfl, h.symm⟩)
  · have hf' : s.fetchable = false := by simpa using hf
    rw [fetchWord_out hf'] at h
    simp only [raise, Host.Outcome.fault.injEq] at h
    exact .inl ⟨hf', h.symm⟩

theorem cycle_next {s t : State} (h : step s = .next t) : cycle s = (t, .ok) := by
  simp [cycle, cycleOf, h]

theorem cycle_fault {s : State} {e : Fault} (h : step s = .fault e) : cycle s = (s, .error e) := by
  simp [cycle, cycleOf, h]

theorem cycle_refused {s : State} {r : Refusal} (h : step s = .refused r) : cycle s = (s, .refused r) := by
  simp [cycle, cycleOf, h]

/-- A word placed at a fetchable `pc` is the word the next cycle fetches. -/
theorem State.wordAtPc_withFetchWord (s : State) (w : Nat) (hm : s.mem.wf = true) (hf : s.fetchable = true) :
    (s.withFetchWord 16 w).wordAtPc = BitVec.ofNat 16 w := by
  have hpc : s.pc.toNat ≤ 0xFFE := s.fetchable_iff.1 hf
  have hw : wordOfTableBits 16 w = BitVec.ofNat 16 w := by
    apply BitVec.eq_of_toNat_eq
    simp [wordOfTableBits]
  have hl : s.pc.toNat + (bytesOfWord (BitVec.ofNat 16 w)).length ≤ Config.memorySize := by
    simp [bytesOfWord, Config.memorySize]
    omega
  have h0 := s.readByte_writeBytes_in s.pc.toNat 0 (bytesOfWord (BitVec.ofNat 16 w)) hm hl (by simp [bytesOfWord])
  have h1 := s.readByte_writeBytes_in s.pc.toNat 1 (bytesOfWord (BitVec.ofNat 16 w)) hm hl (by simp [bytesOfWord])
  simp only [State.withFetchWord, hf, if_true, hw, State.wordAtPc, State.writeBytes_pc]
  rw [Nat.add_zero] at h0
  rw [h0, h1]
  exact wordOfBytes_bytes _

end Sys2Proof.Machine
end

