-- ==== Sys2Proof/Tests/Slice0.lean ====
section
/-!
SUPPORT. The model's own tests. Every expected value is one of spec/95_test_vectors.md (L1, L2), of the opcode map of R104, or is
worked out from the rule named; none is the model's own answer. The last part shows, for every statement with hypotheses, a
concrete input that meets them (and one for each clause, at its boundary).
-/
namespace Sys2Proof.Tests
open Sys2Proof.Machine

/-! ## Helpers -/

/-- The outcome is a next state with the property. -/
def nextIs (o : Host.Outcome State Fault Refusal) (f : State → Bool) : Bool :=
  match o with
  | .next t => f t
  | .fault _ | .refused _ => false

/-- The outcome is this error. -/
def faultIs (o : Host.Outcome State Fault Refusal) (e : Fault) : Bool :=
  match o with
  | .fault f => decide (f = e)
  | .next _ | .refused _ => false

theorem exists_of_nextIs {o : Host.Outcome State Fault Refusal} {f : State → Bool} (h : nextIs o f = true) :
    ∃ t, o = .next t ∧ f t = true := by
  cases o with
  | next t => exact ⟨t, rfl, h⟩
  | fault _ => cases h
  | refused _ => cases h

theorem eq_of_faultIs {o : Host.Outcome State Fault Refusal} {e : Fault} (h : faultIs o e = true) : o = .fault e := by
  cases o with
  | next _ => cases h
  | fault f => rw [of_decide_eq_true (p := f = e) h]
  | refused _ => cases h

/-- The reset state with the word `w` at `pc` (the start state of L2). -/
def wordAt (pc : Word) (w : Nat) : State := (State.reset.writePc pc).withFetchWord 16 w

/-- The reset state with the word `w` at pc = 0x300. -/
def start (w : Nat) : State := wordAt 0x0300#16 w

/-- The first byte of the display set. -/
def withDisplay0 (s : State) (b : Byte) : State := s.writeDisplay (s.display.set 0 b)

/-- A stack of `n` entries, the top one `w`. -/
def withStack (s : State) (n : Nibble) (w : Word) : State :=
  { s with sp := n, stack := s.stack.set n.toNat w n.isLt }

/-! ## Well-formedness: the one check refuses -/

theorem test_wellFormed_sys_e0 : (Instr.sys 0x0E0#12).wellFormed = false := by decide
theorem test_wellFormed_sys_ee : (Instr.sys 0x0EE#12).wellFormed = false := by decide
theorem test_wellFormed_sys_e1 : (Instr.sys 0x0E1#12).wellFormed = true := by decide

/-! ## Decoding: one word of every row, from R104 and L2 -/

theorem test_decode_sys : decode 0x0FFF#16 = .instr (.sys 0xFFF#12) := by decide
theorem test_decode_cls : decode 0x00E0#16 = .instr .cls := by decide
theorem test_decode_ret : decode 0x00EE#16 = .instr .ret := by decide
theorem test_decode_jp : decode 0x1234#16 = .instr (.jp 0x234#12) := by decide
theorem test_decode_call : decode 0x220E#16 = .instr (.call 0x20E#12) := by decide
theorem test_decode_seImm : decode 0x3A05#16 = .instr (.seImm 0xA#4 0x05#8) := by decide
theorem test_decode_sneImm : decode 0x4A05#16 = .instr (.sneImm 0xA#4 0x05#8) := by decide
theorem test_decode_seReg : decode 0x5120#16 = .instr (.seReg 0x1#4 0x2#4) := by decide
theorem test_decode_ldImm : decode 0x6F42#16 = .instr (.ldImm 0xF#4 0x42#8) := by decide
theorem test_decode_addImm : decode 0x7AFF#16 = .instr (.addImm 0xA#4 0xFF#8) := by decide
theorem test_decode_ldReg : decode 0x8F10#16 = .instr (.ldReg 0xF#4 0x1#4) := by decide
theorem test_decode_orReg : decode 0x8121#16 = .instr (.orReg 0x1#4 0x2#4) := by decide
theorem test_decode_andReg : decode 0x8122#16 = .instr (.andReg 0x1#4 0x2#4) := by decide
theorem test_decode_xorReg : decode 0x8123#16 = .instr (.xorReg 0x1#4 0x2#4) := by decide
theorem test_decode_addReg : decode 0x8124#16 = .instr (.addReg 0x1#4 0x2#4) := by decide
theorem test_decode_sub : decode 0x8125#16 = .instr (.sub 0x1#4 0x2#4) := by decide
theorem test_decode_shr : decode 0x8126#16 = .instr (.shr 0x1#4 0x2#4) := by decide
theorem test_decode_subn : decode 0x8347#16 = .instr (.subn 0x3#4 0x4#4) := by decide
theorem test_decode_shl : decode 0x812E#16 = .instr (.shl 0x1#4 0x2#4) := by decide
theorem test_decode_sneReg : decode 0x9120#16 = .instr (.sneReg 0x1#4 0x2#4) := by decide
theorem test_decode_ldI : decode 0xA300#16 = .instr (.ldI 0x300#12) := by decide
theorem test_decode_jpV0 : decode 0xB30F#16 = .instr (.jpV0 0x30F#12) := by decide
theorem test_decode_rnd : decode 0xC30F#16 = .instr (.rnd 0x3#4 0x0F#8) := by decide
theorem test_decode_drw : decode 0xD125#16 = .instr (.drw 0x1#4 0x2#4 0x5#4) := by decide
theorem test_decode_skp : decode 0xE29E#16 = .instr (.skp 0x2#4) := by decide
theorem test_decode_sknp : decode 0xE2A1#16 = .instr (.sknp 0x2#4) := by decide
theorem test_decode_ldVDt : decode 0xF507#16 = .instr (.ldVDt 0x5#4) := by decide
theorem test_decode_ldVK : decode 0xF10A#16 = .instr (.ldVK 0x1#4) := by decide
theorem test_decode_ldDtV : decode 0xF515#16 = .instr (.ldDtV 0x5#4) := by decide
theorem test_decode_ldStV : decode 0xF518#16 = .instr (.ldStV 0x5#4) := by decide
theorem test_decode_addIV : decode 0xF11E#16 = .instr (.addIV 0x1#4) := by decide
theorem test_decode_ldFV : decode 0xF429#16 = .instr (.ldFV 0x4#4) := by decide
theorem test_decode_ldBV : decode 0xF133#16 = .instr (.ldBV 0x1#4) := by decide
theorem test_decode_ldMemV : decode 0xF255#16 = .instr (.ldMemV 0x2#4) := by decide
theorem test_decode_ldVMem : decode 0xF265#16 = .instr (.ldVMem 0x2#4) := by decide

/-- L2.1: unrecognized words of every family that has some. -/
theorem test_decode_unrecognized_5_9_E_F :
    decode 0x5121#16 = .unrecognized 0x5121#16 ∧ decode 0x912F#16 = .unrecognized 0x912F#16 ∧
    decode 0xE200#16 = .unrecognized 0xE200#16 ∧ decode 0xE29F#16 = .unrecognized 0xE29F#16 ∧
    decode 0xF000#16 = .unrecognized 0xF000#16 ∧ decode 0xF0FF#16 = .unrecognized 0xF0FF#16 ∧
    decode 0xF066#16 = .unrecognized 0xF066#16 := by decide
theorem test_decode_unrecognized_8 :
    decode 0x8128#16 = .unrecognized 0x8128#16 ∧ decode 0x8129#16 = .unrecognized 0x8129#16 ∧
    decode 0x812A#16 = .unrecognized 0x812A#16 ∧ decode 0x812B#16 = .unrecognized 0x812B#16 ∧
    decode 0x812C#16 = .unrecognized 0x812C#16 ∧ decode 0x812D#16 = .unrecognized 0x812D#16 ∧
    decode 0x812F#16 = .unrecognized 0x812F#16 := by decide

/-- The table's bit 0 is the least significant bit of the word: 0x6A05 is its number 27141, and a short width is padded with 0. -/
theorem test_decodeTableWord :
    decodeTableWord 16 27141 = some (.ldImm 0xA#4 0x05#8) ∧ decodeTableWord 16 0x5121 = none ∧
    decodeTableWord 8 0x12E0 = some .cls := by decide

/-! ## Fetch (L2.1) -/

theorem test_fetch_out_of_bounds : faultIs (step (State.reset.writePc 0x0FFF#16)) (.outOfBounds .fetch 0x0FFF#16) = true := by decide
theorem test_fetch_last_word : nextIs (step (wordAt 0x0FFE#16 0x0000)) (fun t => t.pc == 0x1000#16) = true := by decide
theorem test_fetch_odd_pc : nextIs (step (wordAt 0x0301#16 0x1234)) (fun t => t.pc == 0x0234#16) = true := by decide
theorem test_unrecognized : faultIs (step (start 0x5121)) (.unrecognizedInstruction 0x5121#16) = true := by decide

/-! ## Control transfer (L2.2) -/

theorem test_sys : nextIs (step (start 0x0FFF)) (fun t => t.pc == 0x0302#16) = true := by decide
theorem test_ret : nextIs (step (withStack (start 0x00EE) 3#4 0x0456#16))
    (fun t => t.pc == 0x0456#16 && t.sp == 2#4 && t.stackAt 3#4 == 0x0456#16) = true := by decide
theorem test_ret_underflow : faultIs (step (start 0x00EE)) (.stackUnderflow 0x0#4) = true := by decide
theorem test_jp : nextIs (step (start 0x1FFF)) (fun t => t.pc == 0x0FFF#16) = true := by decide
theorem test_call : nextIs (step (withStack (start 0x2400) 14#4 0x0000#16))
    (fun t => t.pc == 0x0400#16 && t.sp == 15#4 && t.stackAt 15#4 == 0x0302#16) = true := by decide
theorem test_call_overflow : faultIs (step (withStack (start 0x2400) 15#4 0x0000#16)) (.stackOverflow 0xF#4) = true := by decide
theorem test_seImm : nextIs (step ((start 0x3A05).writeV 0xA#4 0x05#8)) (fun t => t.pc == 0x0304#16) = true := by decide
theorem test_seImm_end : nextIs (step (wordAt 0x0FFE#16 0x3000)) (fun t => t.pc == 0x1002#16) = true := by decide
theorem test_sneImm : nextIs (step ((start 0x4A05).writeV 0xA#4 0x05#8)) (fun t => t.pc == 0x0302#16) = true := by decide
theorem test_sneImm_taken : nextIs (step ((start 0x4A05).writeV 0xA#4 0x06#8)) (fun t => t.pc == 0x0304#16) = true := by decide
theorem test_seReg : nextIs (step (((start 0x5120).writeV 0x1#4 0x07#8).writeV 0x2#4 0x08#8)) (fun t => t.pc == 0x0302#16) = true := by decide
theorem test_seReg_same : nextIs (step (start 0x5110)) (fun t => t.pc == 0x0304#16) = true := by decide
theorem test_sneReg : nextIs (step (((start 0x9120).writeV 0x1#4 0x07#8).writeV 0x2#4 0x08#8)) (fun t => t.pc == 0x0304#16) = true := by decide
theorem test_sneReg_same : nextIs (step (start 0x9110)) (fun t => t.pc == 0x0302#16) = true := by decide
theorem test_jpV0 : nextIs (step ((start 0xBFFF).writeV 0x0#4 0xFF#8)) (fun t => t.pc == 0x10FE#16) = true := by decide

/-! ## Loads and ALU (L2.3) -/

theorem test_ldImm : nextIs (step (start 0x6F42)) (fun t => t.readV 0xF#4 == 0x42#8) = true := by decide
theorem test_addImm : nextIs (step ((start 0x7AFF).writeV 0xA#4 0x03#8))
    (fun t => t.readV 0xA#4 == 0x02#8 && t.readV 0xF#4 == 0x00#8) = true := by decide
theorem test_addImm_vf : nextIs (step ((start 0x7F01).writeV 0xF#4 0xFF#8)) (fun t => t.readV 0xF#4 == 0x00#8) = true := by decide
theorem test_ldReg : nextIs (step (((start 0x8F10).writeV 0x1#4 0x33#8).writeV 0xF#4 0x01#8))
    (fun t => t.readV 0xF#4 == 0x33#8) = true := by decide
theorem test_orReg : nextIs (step ((((start 0x8121).writeV 0x1#4 0x0F#8).writeV 0x2#4 0xF0#8).writeV 0xF#4 0x07#8))
    (fun t => t.readV 0x1#4 == 0xFF#8 && t.readV 0xF#4 == 0x07#8) = true := by decide
theorem test_andReg : nextIs (step (((start 0x8122).writeV 0x1#4 0x3C#8).writeV 0x2#4 0x0F#8))
    (fun t => t.readV 0x1#4 == 0x0C#8) = true := by decide
theorem test_xorReg : nextIs (step (((start 0x8123).writeV 0x1#4 0x3C#8).writeV 0x2#4 0x0F#8))
    (fun t => t.readV 0x1#4 == 0x33#8) = true := by decide
theorem test_addReg : nextIs (step (((start 0x8124).writeV 0x1#4 0xFF#8).writeV 0x2#4 0x01#8))
    (fun t => t.readV 0x1#4 == 0x00#8 && t.readV 0xF#4 == 0x01#8) = true := by decide
theorem test_addReg_vf : nextIs (step (((start 0x8F24).writeV 0xF#4 0xFF#8).writeV 0x2#4 0x02#8))
    (fun t => t.readV 0xF#4 == 0x01#8) = true := by decide
theorem test_sub : nextIs (step (((start 0x8125).writeV 0x1#4 0x07#8).writeV 0x2#4 0x07#8))
    (fun t => t.readV 0x1#4 == 0x00#8 && t.readV 0xF#4 == 0x00#8) = true := by decide
theorem test_sub_source_vf : nextIs (step (((start 0x81F5).writeV 0x1#4 0x10#8).writeV 0xF#4 0x01#8))
    (fun t => t.readV 0x1#4 == 0x0F#8 && t.readV 0xF#4 == 0x01#8) = true := by decide
theorem test_shr : nextIs (step (((start 0x8126).writeV 0x1#4 0x04#8).writeV 0x2#4 0xFF#8))
    (fun t => t.readV 0x1#4 == 0x02#8 && t.readV 0xF#4 == 0x00#8) = true := by decide
theorem test_shr_all_ones : nextIs (step ((start 0x8106).writeV 0x1#4 0xFF#8))
    (fun t => t.readV 0x1#4 == 0x7F#8 && t.readV 0xF#4 == 0x01#8) = true := by decide
theorem test_subn : nextIs (step (((start 0x8347).writeV 0x3#4 0x10#8).writeV 0x4#4 0x20#8))
    (fun t => t.readV 0x3#4 == 0x10#8 && t.readV 0xF#4 == 0x01#8) = true := by decide
theorem test_subn_borrow : nextIs (step (((start 0x8127).writeV 0x1#4 0x05#8).writeV 0x2#4 0x03#8))
    (fun t => t.readV 0x1#4 == 0xFE#8 && t.readV 0xF#4 == 0x00#8) = true := by decide
theorem test_shl : nextIs (step ((start 0x810E).writeV 0x1#4 0x81#8))
    (fun t => t.readV 0x1#4 == 0x02#8 && t.readV 0xF#4 == 0x01#8) = true := by decide
theorem test_shl_vf : nextIs (step ((start 0x8F0E).writeV 0xF#4 0x80#8)) (fun t => t.readV 0xF#4 == 0x01#8) = true := by decide
theorem test_ldI : nextIs (step (start 0xAFFF)) (fun t => t.i == 0x0FFF#16) = true := by decide

/-- The entropy byte is free, so the vector is for the effect of RND on a given byte. -/
theorem test_rnd : (randomMasked 0xAB#8 0x3#4 0x0F#8 (start 0xC30F)).readV 0x3#4 = 0x0B#8 := by decide
theorem test_rnd_counts : nextIs (step (start 0xC300)) (fun t => t.entropyCount == 1) = true := by decide

/-! ## Display (L2.4) -/

theorem test_cls : nextIs (step (withDisplay0 (start 0x00E0) 0xFF#8)) (fun t => t.display.get 0 == 0x00#8) = true := by decide
theorem test_drw_wraps : nextIs (step ((((start 0xD011).writeI 0x0400#16).writeV 0x0#4 62#8).writeBytes 0x400 [0xF0#8]))
    (fun t => t.display.get 7 == 0xC0#8 && t.display.get 0 == 0x03#8 && t.readV 0xF#4 == 0x00#8) = true := by decide
theorem test_drw_collides : nextIs (step (withDisplay0 (((start 0xD011).writeI 0x0400#16).writeBytes 0x400 [0xC0#8]) 0x01#8))
    (fun t => t.display.get 0 == 0x02#8 && t.readV 0xF#4 == 0x01#8) = true := by decide
theorem test_drw_out_of_bounds : faultIs (step ((start 0xD012).writeI 0x0FFF#16)) (.outOfBounds .memory 0x0FFF#16) = true := by decide

/-! ## Keypad, timers, memory transfer (L2.5) -/

theorem test_skp : nextIs (step (((start 0xE29E).writeV 0x2#4 0x07#8).setKey 0x7#4 true)) (fun t => t.pc == 0x0304#16) = true := by decide
theorem test_skp_bad_key : faultIs (step ((start 0xE29E).writeV 0x2#4 0x10#8)) (.outOfBounds .key 0x0010#16) = true := by decide
theorem test_sknp : nextIs (step ((start 0xE2A1).writeV 0x2#4 0x07#8)) (fun t => t.pc == 0x0304#16) = true := by decide
theorem test_sknp_bad_key : faultIs (step ((start 0xE2A1).writeV 0x2#4 0xFF#8)) (.outOfBounds .key 0x00FF#16) = true := by decide
theorem test_ldVDt : nextIs (step ((start 0xF507).writeDt 0x3C#8)) (fun t => t.readV 0x5#4 == 0x3C#8) = true := by decide
theorem test_ldVK_waits : nextIs (step (start 0xF10A)) (fun t => t.pc == 0x0300#16 && t.readV 0x1#4 == 0x00#8) = true := by decide
theorem test_ldVK : nextIs (step (((start 0xF10A).setKey 0x3#4 true).setKey 0x7#4 true))
    (fun t => t.pc == 0x0302#16 && t.readV 0x1#4 == 0x03#8) = true := by decide
theorem test_ldDtV : nextIs (step ((start 0xF515).writeV 0x5#4 0x3C#8)) (fun t => t.dt == 0x3C#8) = true := by decide
theorem test_ldStV : nextIs (step ((start 0xF518).writeV 0x5#4 0x02#8)) (fun t => t.st == 0x02#8 && t.soundActive) = true := by decide
theorem test_addIV : nextIs (step (((start 0xF11E).writeI 0x0FF0#16).writeV 0x1#4 0x20#8))
    (fun t => t.i == 0x1010#16 && t.readV 0xF#4 == 0x00#8) = true := by decide
theorem test_addIV_wraps : nextIs (step (((start 0xF11E).writeI 0xFFFF#16).writeV 0x1#4 0x02#8)) (fun t => t.i == 0x0001#16) = true := by decide
theorem test_ldFV : nextIs (step ((start 0xF429).writeV 0x4#4 0x0A#8)) (fun t => t.i == 0x0032#16) = true := by decide
theorem test_ldFV_bad_digit : faultIs (step ((start 0xF429).writeV 0x4#4 0x10#8)) (.outOfBounds .font 0x0010#16) = true := by decide
theorem test_ldBV : nextIs (step (((start 0xF133).writeI 0x0400#16).writeV 0x1#4 254#8))
    (fun t => t.readByte 0x400 == 2#8 && t.readByte 0x401 == 5#8 && t.readByte 0x402 == 4#8 && t.i == 0x0400#16) = true := by decide
theorem test_ldBV_out_of_bounds : faultIs (step ((start 0xF133).writeI 0x0FFE#16)) (.outOfBounds .memory 0x0FFE#16) = true := by decide
theorem test_ldMemV : nextIs (step (((((start 0xF255).writeI 0x0400#16).writeV 0x0#4 1#8).writeV 0x1#4 2#8).writeV 0x2#4 1#8))
    (fun t => t.readByte 0x400 == 1#8 && t.readByte 0x401 == 2#8 && t.readByte 0x402 == 1#8 && t.i == 0x0400#16) = true := by decide
theorem test_ldMemV_out_of_bounds : faultIs (step ((start 0xF155).writeI 0x0FFF#16)) (.outOfBounds .memory 0x0FFF#16) = true := by decide
theorem test_ldVMem : nextIs (step (((start 0xF265).writeI 0x0400#16).writeBytes 0x400 [0x0A#8, 0x0B#8, 0x0C#8]))
    (fun t => t.readV 0x0#4 == 0x0A#8 && t.readV 0x1#4 == 0x0B#8 && t.readV 0x2#4 == 0x0C#8 && t.readV 0x3#4 == 0x00#8) = true := by decide
theorem test_ldVMem_out_of_bounds : faultIs (step ((start 0xF165).writeI 0x0FFF#16)) (.outOfBounds .memory 0x0FFF#16) = true := by decide

/-! ## Host operations (L2.6, R341, R374, R362) and the font (R306) -/

theorem test_tick : ((State.reset.writeDt 2#8).timerTick).dt = 1#8 ∧ ((State.reset.writeSt 1#8).timerTick).st = 0#8 ∧
    ((State.reset.writeSt 1#8).timerTick).soundActive = false ∧ (State.reset.timerTick).dt = 0#8 := by decide
theorem test_setKey : (State.reset.setKey 0x3#4 true).keyDown 0x3#4 = true := by decide
theorem test_loadBytes_too_long : State.reset.loadBytes 0x200 (List.replicate 3585 0x00#8) = none :=
  if_neg (by rw [List.length_replicate]; decide)
theorem test_codes : statusCode .ok = some 0#8 ∧ errorCode (.unrecognizedInstruction 0#16) = 1#8 ∧ errorCode (.stackOverflow 15#4) = 2#8 ∧
    errorCode (.stackUnderflow 0#4) = 3#8 ∧ errorCode (.outOfBounds .font 16#16) = 4#8 ∧ sourceCode .fetch = 0#2 ∧
    sourceCode .memory = 1#2 ∧ sourceCode .key = 2#2 ∧ sourceCode .font = 3#2 := by decide

/-- P6: the glyph of 7, at 5 times 7. -/
theorem test_font_glyph_7 : Config.font.length = 80 ∧ (Config.font.drop 35).take 5 = [0xF0#8, 0x10#8, 0x20#8, 0x40#8, 0x40#8] := by
  decide

/-! ## Witnesses: inputs that meet the hypotheses of the statements -/

theorem witness_DecodeOfEncodeIsTheInstruction : (Instr.sys 0x0E1#12).wellFormed = true ∧ (Instr.drw 0xF#4 0xF#4 0xF#4).wellFormed = true := by
  decide
theorem witness_EncodeOfDecodeIsTheWord : decode 0x8AB4#16 = .instr (.addReg 0xA#4 0xB#4) := by decide

/-- Each clause: a decoded word; a word of the SYS row that meets the exclusion; a word of another row. -/
theorem witness_DecoderFollowsTheOpcodeTable :
    decode 0xF265#16 = .instr (.ldVMem 0x2#4) ∧
    (0x00E1#16 &&& (Instr.sys 0#12).row.1 = (Instr.sys 0#12).row.2 ∧ 0x00E1#16 ≠ 0x00E0#16 ∧ 0x00E1#16 ≠ 0x00EE#16) ∧
    (0xF265#16 &&& (Instr.ldVMem 0#4).row.1 = (Instr.ldVMem 0#4).row.2 ∧ opField 0xF265#16 ≠ 0x0#4) ∧
    (0x00E0#16 &&& Instr.cls.row.1 = Instr.cls.row.2 ∧ Instr.cls.row.1 ≠ 0xF000#16) := by decide

theorem witness_UnrecognizedWordsAreTheListedOnes :
    (start 0xE29F).fetchable = true ∧ decode (start 0xE29F).wordAtPc = .unrecognized (start 0xE29F).wordAtPc := by decide

/-- The last fetchable pc; and a RET with an empty stack, whose step is an error. -/
theorem witness_StepRunsTheDecodedInstruction :
    ((wordAt 0x0FFE#16 0x6A05).pc.toNat ≤ 0xFFE ∧
      decode ((wordAt 0x0FFE#16 0x6A05).readByte (wordAt 0x0FFE#16 0x6A05).pc.toNat ++
        (wordAt 0x0FFE#16 0x6A05).readByte ((wordAt 0x0FFE#16 0x6A05).pc.toNat + 1) : Word) = .instr (.ldImm 0xA#4 0x05#8)) ∧
    (start 0x00EE).pc.toNat ≤ 0xFFE ∧
    decode ((start 0x00EE).readByte (start 0x00EE).pc.toNat ++ (start 0x00EE).readByte ((start 0x00EE).pc.toNat + 1) : Word) = .instr .ret ∧
    step (start 0x00EE) = .fault (.stackUnderflow 0x0#4) :=
  ⟨by decide, by decide, by decide, eq_of_faultIs (by decide)⟩

/-- Each clause: above the bound; an unrecognized word; an instruction that completes; one that reports an error. -/
theorem witness_CycleFollowsThePseudocode :
    0xFFE < (State.reset.writePc 0x0FFF#16).pc.toNat ∧
    ((wordAt 0x0FFE#16 0x5121).pc.toNat ≤ 0xFFE ∧ decode (wordAt 0x0FFE#16 0x5121).wordAtPc = .unrecognized 0x5121#16) ∧
    (decode (start 0x00EE).wordAtPc = .instr .ret ∧ exec .ret ((start 0x00EE).writePc ((start 0x00EE).pc + 2#16)) = .fault (.stackUnderflow 0x0#4)) ∧
    (decode (start 0x1300).wordAtPc = .instr (.jp 0x300#12) ∧ ∃ t, exec (.jp 0x300#12) ((start 0x1300).writePc ((start 0x1300).pc + 2#16)) = .next t) :=
  ⟨by decide, by decide, ⟨by decide, eq_of_faultIs (by decide)⟩, ⟨by decide, _, rfl⟩⟩

theorem witness_FetchBoundIsReported :
    (State.reset.writePc 0x0FFE#16).pc.toNat ≤ 0xFFE ∧ 0xFFE < (State.reset.writePc 0x0FFF#16).pc.toNat := by decide
theorem witness_EveryCycleCommitsOrReportsOneError : (cycle (State.reset.writePc 0x0FFF#16)).2 ≠ .ok := by decide

/-- Both sides: a state on which an instruction raises its error, and the boundary state on which it does not. -/
theorem witness_InstructionErrorsAreTheListedOnes :
    exec (.drw 0#4 0#4 2#4) (State.reset.writeI 0x0FFF#16) = .fault (.outOfBounds .memory 0x0FFF#16) ∧
    ownError (.drw 0#4 0#4 1#4) (State.reset.writeI 0x0FFF#16) = none ∧
    ownError (.ldMemV 0xF#4) (State.reset.writeI 0x0FF1#16) = some (.outOfBounds .memory 0x0FF1#16) ∧
    ownError (.skp 0#4) (State.reset.writeV 0#4 0x10#8) = some (.outOfBounds .key 0x0010#16) :=
  ⟨eq_of_faultIs (by decide), by decide, by decide, by decide⟩
theorem witness_EveryInstructionCompletes :
    ownError (.call 0#12) (withStack State.reset 14#4 0#16) = none ∧ ownError .ret (withStack State.reset 1#4 0#16) = none ∧
    ownError (.ldBV 0#4) (State.reset.writeI 0x0FFD#16) = none ∧ ownError (.ldMemV 0xF#4) (State.reset.writeI 0x0FF0#16) = none ∧
    ownError (.sknp 0#4) (State.reset.writeV 0#4 0x0F#8) = none ∧ ownError (.ldFV 0#4) (State.reset.writeV 0#4 0x0F#8) = none := by
  decide

theorem witness_SysIsNoOperation : 0xFFF#12 ≠ 0x0E0#12 ∧ 0xFFF#12 ≠ 0x0EE#12 := by decide
theorem witness_RetPopsTheReturnAddress : (withStack State.reset 1#4 0x0206#16).sp ≠ 0x0#4 ∧ State.reset.sp = 0x0#4 := by decide
theorem witness_CallPushesAndJumps : (withStack State.reset 14#4 0#16).sp ≠ 0xF#4 ∧ (withStack State.reset 15#4 0#16).sp = 0xF#4 ∧
    0x0#4 ≠ (withStack State.reset 14#4 0#16).sp + 1#4 := by decide
theorem witness_RetAfterCallReturns : ∃ t, exec (.call 0x400#12) (withStack State.reset 14#4 0#16) = .next t :=
  (exists_of_nextIs (f := fun _ => true) (by decide)).imp fun _ h => h.1
theorem witness_FifteenNestedCallsThenOverflow : State.reset.sp = 0x0#4 ∧ 15 ≤ 15 := by decide

theorem witness_ImmediateSkipsCompareWithTheByte : State.reset.readV 0xF#4 = 0x00#8 ∧ State.reset.readV 0xF#4 ≠ 0xFF#8 := by decide
theorem witness_RegisterSkipsCompareTheRegisters :
    State.reset.readV 0x1#4 = State.reset.readV 0x2#4 ∧ (State.reset.writeV 0x1#4 0x01#8).readV 0x1#4 ≠ (State.reset.writeV 0x1#4 0x01#8).readV 0x2#4 ∧
    0x1#4 ≠ 0x0#4 := by decide

/-- Each clause: room on the stack; a sum of 0xFFF; a stacked 0xFFF; a zero word at 0xFFE, the last fetchable address. -/
theorem witness_UnfetchableTargetsAreReportedByTheNextFetch :
    State.reset.sp ≠ 0xF#4 ∧ 0xFFE < (0xFFE#12 : Addr12).toNat + ((State.reset.writeV 0x0#4 0x01#8).readV 0x0#4).toNat ∧
    ((withStack State.reset 1#4 0x0FFF#16).sp ≠ 0x0#4 ∧
      0xFFE < ((withStack State.reset 1#4 0x0FFF#16).stackAt (withStack State.reset 1#4 0x0FFF#16).sp).toNat) ∧
    (State.reset.writePc 0x0FFE#16).fetchable = true ∧ (State.reset.writePc 0x0FFE#16).wordAtPc = 0x0000#16 ∧
    0xFFC < (State.reset.writePc 0x0FFE#16).pc.toNat := by decide

/-- For LogicWorksBitByBit, ShrWritesHalfAndTheBitShiftedOut, ShlWritesDoubleAndTheBitShiftedOut and
RndMasksOneEntropyByte, whose hypotheses are on the operands alone. -/
theorem witness_operand_hypotheses : 7 < 8 ∧ 0x1#4 ≠ 0xF#4 ∧ (0x00#8 : Byte) = 0x00#8 := by decide

/-- Sums 255 and 256. -/
theorem witness_AddRegWritesSumAndCarry :
    0x1#4 ≠ 0xF#4 ∧
    ((State.reset.writeV 0x1#4 0xFF#8).readV 0x1#4).toNat + ((State.reset.writeV 0x1#4 0xFF#8).readV 0x2#4).toNat ≤ 255 ∧
    255 < ((State.reset.writeV 0x1#4 0x80#8).readV 0x1#4).toNat + ((State.reset.writeV 0x1#4 0x80#8).readV 0x1#4).toNat := by decide

/-- Equality, and one more. -/
theorem witness_SubWritesDifferenceAndStrictFlag :
    0x1#4 ≠ 0xF#4 ∧ (State.reset.readV 0x1#4).toNat ≤ (State.reset.readV 0x2#4).toNat ∧
    ((State.reset.writeV 0x1#4 0x01#8).readV 0x2#4).toNat < ((State.reset.writeV 0x1#4 0x01#8).readV 0x1#4).toNat := by decide
theorem witness_SubnWritesDifferenceAndStrictFlag :
    0x1#4 ≠ 0xF#4 ∧ (State.reset.readV 0x2#4).toNat ≤ (State.reset.readV 0x1#4).toNat ∧
    ((State.reset.writeV 0x2#4 0x01#8).readV 0x1#4).toNat < ((State.reset.writeV 0x2#4 0x01#8).readV 0x2#4).toNat := by decide

/-- An 8-pixel row at V[0] = 62, V[1] = 0 from I = 0xFFF, the top of memory, with pixel (0, 0) on. -/
def spriteState : State :=
  withDisplay0 (((State.reset.writeI 0x0FFF#16).writeV 0x0#4 62#8).writeBytes 0xFFF [0xF0#8]) 0x01#8

/-- The clauses of DRW: n = 0; a range that ends at 0xFFF; a covered pixel, which is on; a pixel that is not covered; and a draw that
meets no pixel that is on. -/
theorem witness_DrwInvertsExactlyTheCoveredPixels :
    0x0#4 = 0x0#4 ∧ spriteState.i.toNat + ((1#4 : Nibble).toNat - 1) ≤ 0xFFF ∧
    SpriteCovers 0x0#4 0x1#4 1#4 spriteState 0 0 ∧ spriteState.pixel 0 0 = true ∧ ¬ SpriteCovers 0x0#4 0x1#4 1#4 spriteState 1 0 ∧
    ∀ (row : Fin 32) (col : Fin 64), SpriteCovers 0x0#4 0x1#4 0x0#4 spriteState row col → spriteState.pixel row col = false := by
  refine ⟨rfl, by decide, ⟨0, 2, by decide, by decide, by decide, by decide, by decide⟩, by decide, ?_, ?_⟩
  · rintro ⟨r, c, hr, _, _, h, _⟩
    have h0 : r = 0 := Nat.lt_one_iff.1 hr
    subst h0
    revert h
    decide
  · rintro row col ⟨r, _, hr, _⟩
    exact absurd hr (Nat.not_lt_zero r)

theorem witness_DrwChecksTheSpriteRange : 0x2#4 ≠ 0x0#4 ∧ 0xFFF < (State.reset.writeI 0x0FFF#16).i.toNat + ((0x2#4 : Nibble).toNat - 1) := by
  decide
theorem witness_DrwTwiceRestoresTheDisplay :
    0x0#4 ≠ 0xF#4 ∧ 0x1#4 ≠ 0xF#4 ∧ ∃ t, exec (.drw 0x0#4 0x1#4 1#4) spriteState = .next t :=
  ⟨by decide, by decide, (exists_of_nextIs (f := fun _ => true) (by decide)).imp fun _ h => h.1⟩

/-- V[x] = 15 with key 15 up, then down; V[x] = 16. -/
theorem witness_KeypadSkipsReadTheNamedKey :
    ((State.reset.writeV 0x2#4 0x0F#8).readV 0x2#4).toNat = (0xF#4 : Nibble).toNat ∧ (State.reset.writeV 0x2#4 0x0F#8).keyDown 0xF#4 = false ∧
    ((State.reset.writeV 0x2#4 0x0F#8).setKey 0xF#4 true).keyDown 0xF#4 = true ∧
    0xF < ((State.reset.writeV 0x2#4 0x10#8).readV 0x2#4).toNat ∧
    (0x0010#16 : Word).toNat = ((State.reset.writeV 0x2#4 0x10#8).readV 0x2#4).toNat := by decide

/-- No key down; the waiting word at pc; keys 3 and 7 down, of which 3 is the lowest. -/
theorem witness_KeyWaitRepeatsOrTakesTheLowestKey :
    (∀ k : Nibble, (start 0xF10A).keyDown k = false) ∧ (start 0xF10A).fetchable = true ∧
    decode (start 0xF10A).wordAtPc = .instr (.ldVK 0x1#4) ∧
    ((State.reset.setKey 0x3#4 true).setKey 0x7#4 true).keyDown 0x3#4 = true ∧
    ∀ j : Nibble, j.toNat < (0x3#4 : Nibble).toNat → ((State.reset.setKey 0x3#4 true).setKey 0x7#4 true).keyDown j = false := by decide
theorem witness_LdFPointsAtTheGlyph :
    ((State.reset.writeV 0x4#4 0x0F#8).readV 0x4#4).toNat ≤ 0xF ∧ 0xF < ((State.reset.writeV 0x4#4 0x10#8).readV 0x4#4).toNat ∧
    (0x0010#16 : Word).toNat = ((State.reset.writeV 0x4#4 0x10#8).readV 0x4#4).toNat := by decide
theorem witness_LdBStoresTheDecimalDigits :
    (State.reset.writeI 0x0FFD#16).i.toNat ≤ 0xFFD ∧ (State.reset.writeI 0x0FFD#16).mem.wf = true ∧
    0xFFD < (State.reset.writeI 0x0FFE#16).i.toNat := by decide
theorem witness_LdMemStoresTheRegisters :
    (State.reset.writeI 0x0FF0#16).i.toNat + (0xF#4 : Nibble).toNat ≤ 0xFFF ∧ (State.reset.writeI 0x0FF0#16).mem.wf = true ∧
    (0xF#4 : Nibble).toNat ≤ (0xF#4 : Nibble).toNat ∧ 0xFFF < (State.reset.writeI 0x0FF1#16).i.toNat + (0xF#4 : Nibble).toNat := by decide
theorem witness_LdVLoadsTheRegisters :
    (State.reset.writeI 0x0FFF#16).i.toNat + (0x0#4 : Nibble).toNat ≤ 0xFFF ∧ (0x0#4 : Nibble).toNat < (0x1#4 : Nibble).toNat ∧
    0xFFF < (State.reset.writeI 0x0FFF#16).i.toNat + (0x1#4 : Nibble).toNat := by decide

/-- The state after the store serves as the state of the load. -/
theorem witness_LoadAfterStoreRestoresTheRegisters :
    ∃ t, exec (.ldMemV 0x2#4) ((State.reset.writeI 0x0400#16).writeV 0x1#4 0x55#8) = .next t ∧ t.mem = t.mem ∧
      t.i = ((State.reset.writeI 0x0400#16).writeV 0x1#4 0x55#8).i ∧ ((State.reset.writeI 0x0400#16).writeV 0x1#4 0x55#8).mem.wf = true := by
  obtain ⟨t, h, hi⟩ := exists_of_nextIs (o := exec (.ldMemV 0x2#4) ((State.reset.writeI 0x0400#16).writeV 0x1#4 0x55#8))
    (f := fun t => t.i == ((State.reset.writeI 0x0400#16).writeV 0x1#4 0x55#8).i) (by decide)
  exact ⟨t, h, rfl, eq_of_beq hi, rfl⟩
theorem witness_StoredWordIsFetchedNext :
    ∃ t, exec (.ldMemV 0x1#4) (State.reset.writeI 0x0200#16) = .next t ∧
      (State.reset.writeI 0x0200#16).mem.wf = true ∧ 1 ≤ (0x1#4 : Nibble).toNat ∧
      (State.reset.writeI 0x0200#16).pc = (State.reset.writeI 0x0200#16).i := by
  obtain ⟨t, h, _⟩ := exists_of_nextIs (o := exec (.ldMemV 0x1#4) (State.reset.writeI 0x0200#16)) (f := fun _ => true) (by decide)
  exact ⟨t, h, rfl, by decide, rfl⟩

/-- For OnlyClsAndDrwChangeTheDisplay, OnlyCallAndRetMoveTheStack, SpecialRegistersChangeOnlyByTheirInstructions,
MemoryChangesOnlyInTheStoredRange, KeypadIsReadOnlyAndEntropyIsDrawnByRnd and ControlTransfersWriteOnlyPcAndStack, which take any
instruction that completes: one of each kind their clauses name. -/
theorem witness_instructions_complete :
    (∃ t, exec (.ldImm 0x1#4 0x05#8) State.reset = .next t) ∧ (∃ t, exec (.call 0x400#12) State.reset = .next t) ∧
    (∃ t, exec .ret (withStack State.reset 1#4 0x0300#16) = .next t) ∧ (∃ t, exec (.ldBV 0x1#4) State.reset = .next t) ∧
    (∃ t, exec (.ldMemV 0x1#4) State.reset = .next t) ∧ (∃ t, exec (.rnd 0x1#4 0xFF#8) State.reset = .next t) ∧
    (∃ t, exec (.seReg 0x1#4 0x1#4) State.reset = .next t) ∧ (∃ t, exec (.sys 0x123#12) State.reset = .next t) ∧
    (∃ t, exec (.jpV0 0x123#12) State.reset = .next t) ∧ (∃ t, exec (.seImm 0x1#4 0x01#8) State.reset = .next t) := by
  refine ⟨⟨_, rfl⟩, ?_, ?_, ?_, ?_, ⟨_, rfl⟩, ⟨_, rfl⟩, ⟨_, rfl⟩, ⟨_, rfl⟩, ⟨_, rfl⟩⟩
  all_goals exact (exists_of_nextIs (f := fun _ => true) (by decide)).imp fun _ h => h.1

/-- An ADD that changes V[1]. -/
theorem witness_RegistersChangeOnlyAsDestinations :
    ∃ t, exec (.addImm 0x1#4 0x05#8) State.reset = .next t ∧ (t.readV 0x1#4 != State.reset.readV 0x1#4) = true :=
  exists_of_nextIs (by decide)

theorem witness_PcAfterACompletedCycle : ∃ t, step (start 0x3000) = .next t :=
  (exists_of_nextIs (f := fun _ => true) (by decide)).imp fun _ h => h.1

theorem reset_inv : Inv State.reset := ⟨rfl, by decide, by decide, fun j => by rw [State.stackAt_reset]; decide⟩

theorem witness_StepKeepsTheInvariant : Inv State.reset ∧ ∃ t, step State.reset = .next t :=
  ⟨reset_inv, (exists_of_nextIs (f := fun _ => true) (by decide)).imp fun _ h => h.1⟩

/-- Load a program, run it once, press a key, tick, reset. -/
theorem witness_SessionsKeepTheInvariant :
    Inv Session.start.machine ∧
    ∃ y rs, Session.start.run [.loadBytes 0x200 [0x2F#8, 0xFF#8], .step, .step, .setKey 0x3#4 true, .tickDelay, .reset] = .next (y, rs) :=
  ⟨reset_inv, _, _, rfl⟩

/-- Two states with different hidden entries. -/
theorem witness_HiddenStackEntriesAreUnobservable :
    ObsEq State.reset (withStack State.reset 0#4 0x1234#16) ∧
    (withStack State.reset 0#4 0x1234#16).stackAt 0#4 ≠ State.reset.stackAt 0#4 := by
  refine ⟨⟨?_, rfl, ?_⟩, by decide⟩
  · intro p hp
    cases p <;> first | (exfalso; revert hp; decide) | rfl | (intro _; rfl)
  · intro j h0 hj
    exact absurd h0 (Nat.not_lt.2 hj)

theorem witness_KeypadDisplayAndSoundInterfaces : 0x3#4 ≠ 0x7#4 := by decide

/-- A whole image of memory; one byte too many; a byte of an image. -/
theorem witness_LoadBytesStoresTheImageOrIsRefused :
    0xFFF + [0x12#8].length ≤ 4096 ∧ State.reset.mem.wf = true ∧ 0 < [0x12#8].length ∧ 4096 < 0x1000 + [0x12#8].length := by decide

end Sys2Proof.Tests
end

section
/-!
The reset state, field by field (spec/10_state.md R50): the display's read of it, beside the reads of `Sys2Proof/Laws/State.lean`,
and the statement about all of them.
-/
namespace Sys2Proof.Machine

@[simp] theorem State.display_get_reset (b : Fin 256) : State.reset.display.get b = 0x00#8 := by
  simp [Vector.get_eq_getElem]

/-- Settles O55: each clause is the law of that field's read at reset. -/
theorem resetLeavesTheListedValues : Obligations.ResetLeavesTheListedValues :=
  ⟨State.readByte_reset, State.readV_reset, State.reset_i, State.reset_pc, State.reset_sp, State.stackAt_reset,
    State.reset_dt, State.reset_st, State.keyDown_reset, State.display_get_reset⟩

end Sys2Proof.Machine
end

section
/-!
The fetch unit on the other side of its bound (spec/40_cycle.md R132): where `pc` is not fetchable, what the whole cycle reports.
It stands beside `fetchWord_in` and `fetchWord_out` of `Sys2Proof/Laws/Step.lean`, and the statement about both sides follows it.
-/
namespace Sys2Proof.Machine

theorem State.not_fetchable_iff (s : State) : s.fetchable = false ↔ 0xFFE < s.pc.toNat := by
  rw [← Bool.not_eq_true, s.fetchable_iff, Nat.not_le]

theorem step_fault_of_not_fetchable {s : State} (h : s.fetchable = false) : step s = .fault (.outOfBounds .fetch s.pc) := by
  simp only [step, fetchWord_out h, raise]

/-- Settles O8: `fetchWord_in` below the bound, where `wordAtPc` is the two bytes joined (R72); above it the step is the fetch's
error, and `cycle` pairs an error with the state it began in. -/
theorem fetchBoundIsReported : Obligations.FetchBoundIsReported := by
  intro s
  constructor
  · intro hpc
    exact fetchWord_in (s.fetchable_iff.2 hpc)
  · intro hpc
    have hstep := step_fault_of_not_fetchable (s.not_fetchable_iff.2 hpc)
    exact ⟨hstep, by rw [cycle_fault hstep]⟩

end Sys2Proof.Machine
end

section
/-!
What the decoder's answers leave room for (spec/30_encoding.md R105): only a SYS can be ill formed, and SYS is the answer for a
word of family 0 that is neither of the two exact words.
-/
namespace Sys2Proof

theorem Instr.wellFormed_of_ne_sys {i : Instr} (h : ∀ nnn, i ≠ .sys nnn) : i.wellFormed = true := by
  cases i with
  | sys nnn => exact absurd rfl (h nnn)
  | _ => rfl

theorem Instr.wellFormed_sys_iff {nnn : Addr12} :
    (Instr.sys nnn).wellFormed = true ↔ nnn ≠ 0x0E0#12 ∧ nnn ≠ 0x0EE#12 := by
  simp [Instr.wellFormed]

/-- Family 0 tests its two exact words before it answers SYS. -/
theorem decodeFamily0_sys {w : Word} {nnn : Addr12} (h : decodeFamily0 w = .instr (.sys nnn)) :
    w ≠ 0x00E0#16 ∧ w ≠ 0x00EE#16 ∧ nnnField w = nnn := by
  unfold decodeFamily0 at h
  split_ifs at h with hcls hret
  · simp at h
  · simp at h
  · simp only [Decoded.instr.injEq, Instr.sys.injEq] at h
    exact ⟨hcls, hret, h⟩

@[simp] theorem decodeFamily5_ne_sys (w : Word) (nnn : Addr12) : decodeFamily5 w ≠ .instr (.sys nnn) := by
  unfold decodeFamily5
  split_ifs <;> simp

@[simp] theorem decodeFamily8_ne_sys (w : Word) (nnn : Addr12) : decodeFamily8 w ≠ .instr (.sys nnn) := by
  unfold decodeFamily8
  split_ifs <;> simp

@[simp] theorem decodeFamily9_ne_sys (w : Word) (nnn : Addr12) : decodeFamily9 w ≠ .instr (.sys nnn) := by
  unfold decodeFamily9
  split_ifs <;> simp

@[simp] theorem decodeFamilyE_ne_sys (w : Word) (nnn : Addr12) : decodeFamilyE w ≠ .instr (.sys nnn) := by
  unfold decodeFamilyE
  split_ifs <;> simp

@[simp] theorem decodeFamilyF_ne_sys (w : Word) (nnn : Addr12) : decodeFamilyF w ≠ .instr (.sys nnn) := by
  unfold decodeFamilyF
  split_ifs <;> simp

/-- No family but 0 answers SYS. -/
theorem opField_of_decode_sys {w : Word} {nnn : Addr12} (h : decode w = .instr (.sys nnn)) : opField w = 0x0#4 := by
  rcases opField_cases w with h0 | h1 | h2 | h3 | h4 | h5 | h6 | h7 | h8 | h9 | hA | hB | hC | hD | hE | hF
  · exact h0
  · simp [decode_op1 h1] at h
  · simp [decode_op2 h2] at h
  · simp [decode_op3 h3] at h
  · simp [decode_op4 h4] at h
  · simp [decode_op5 h5] at h
  · simp [decode_op6 h6] at h
  · simp [decode_op7 h7] at h
  · simp [decode_op8 h8] at h
  · simp [decode_op9 h9] at h
  · simp [decode_opA hA] at h
  · simp [decode_opB hB] at h
  · simp [decode_opC hC] at h
  · simp [decode_opD hD] at h
  · simp [decode_opE hE] at h
  · simp [decode_opF hF] at h

/-- The word of a decoded SYS is its address field alone, so the two exact words' fields are not among a SYS's operands. -/
theorem wellFormed_of_decode_sys {w : Word} {nnn : Addr12} (h : decode w = .instr (.sys nnn)) :
    (Instr.sys nnn).wellFormed = true := by
  have hop := opField_of_decode_sys h
  obtain ⟨hcls, hret, hnnn⟩ := decodeFamily0_sys (decode_op0 hop ▸ h)
  have hw : wordNNN 0x0#4 nnn = w := by rw [← hop, ← hnnn, wordNNN_fields]
  refine Instr.wellFormed_sys_iff.2 ⟨?_, ?_⟩
  · rintro rfl
    exact hcls (hw.symm.trans (by decide))
  · rintro rfl
    exact hret (hw.symm.trans (by decide))

theorem wellFormed_of_decode {w : Word} {i : Instr} (h : decode w = .instr i) : i.wellFormed = true := by
  by_cases hsys : ∃ nnn, i = .sys nnn
  · obtain ⟨nnn, rfl⟩ := hsys
    exact wellFormed_of_decode_sys h
  · exact Instr.wellFormed_of_ne_sys (not_exists.1 hsys)

end Sys2Proof
end

section
/-!
One cycle at a fetchable `pc`, forwards (spec/40_cycle.md R131, R133): what `step` answers for each of the decoder's two answers,
beside `step_fault_of_not_fetchable` above and the inversions of `Sys2Proof/Laws/Step.lean`.
-/
namespace Sys2Proof.Machine

theorem step_of_instr {s : State} {i : Instr} (hf : s.fetchable = true) (hd : decode s.wordAtPc = .instr i) :
    step s = exec i s.advancePc := by
  simp only [step, fetchWord_in hf, hd]

theorem step_of_unrecognized {s : State} {u : Word} (hf : s.fetchable = true) (hd : decode s.wordAtPc = .unrecognized u) :
    step s = .fault (.unrecognizedInstruction u) := by
  simp only [step, fetchWord_in hf, hd, raise]

/-- A write of `pc` keeps every other part. -/
theorem keepsAllBut_writePc (s : State) (w : Word) : KeepsAllBut [.pc] s (s.writePc w) := by
  intro p hp
  cases p with
  | pc => simp at hp
  | _ => simp [Part.same]

/-- Settles O6: the step is the handler on the advanced state, which differs from the state in `pc` alone; an error is paired with
the state the cycle began in. -/
theorem stepRunsTheDecodedInstruction : Obligations.StepRunsTheDecodedInstruction := by
  intro s i hpc hd
  have hstep := step_of_instr (s.fetchable_iff.2 hpc) hd
  exact ⟨wellFormed_of_decode hd, hstep, rfl, keepsAllBut_writePc s _, fun e he => by rw [cycle_fault he]⟩

/-- Settles O7: each branch of R131 gives the step's outcome, and `cycle` pairs it with the next state or with the unchanged one. -/
theorem cycleFollowsThePseudocode : Obligations.CycleFollowsThePseudocode := by
  intro s
  refine ⟨fun hpc => ?_, fun hpc => ⟨fun u hd => ?_, fun i hd => ?_⟩⟩
  · exact cycle_fault (step_fault_of_not_fetchable (s.not_fetchable_iff.2 hpc))
  · exact cycle_fault (step_of_unrecognized (s.fetchable_iff.2 hpc) hd)
  · have hstep := step_of_instr (s.fetchable_iff.2 hpc) hd
    exact ⟨fun t ht => cycle_next (hstep.trans ht), fun e he => cycle_fault (hstep.trans he)⟩

end Sys2Proof.Machine
end

section
/-!
Frames compose: what two updates in a row keep is what each keeps, and a frame that allows more follows from one that allows less.
The updates of the stack are here; `keepsAllBut_writePc` above is the one of `pc`.
-/
namespace Sys2Proof.Machine

theorem Part.same_trans {p : Part} {s t u : State} (hst : p.same s t) (htu : p.same t u) : p.same s u := by
  cases p with
  | regs | stack | keypad | display | memory => exact fun a => (htu a).trans (hst a)
  | index | pc | sp | delay | sound | entropy => exact htu.trans hst

theorem KeepsAllBut.trans {ps qs : List Part} {s t u : State} (hst : KeepsAllBut ps s t) (htu : KeepsAllBut qs t u) :
    KeepsAllBut (ps ++ qs) s u := by
  intro p hp
  obtain ⟨hps, hqs⟩ := not_or.1 (hp ∘ List.mem_append.2)
  exact Part.same_trans (hst p hps) (htu p hqs)

theorem KeepsAllBut.mono {ps qs : List Part} {s t : State} (h : KeepsAllBut ps s t) (hsub : ps ⊆ qs) :
    KeepsAllBut qs s t :=
  fun p hp => h p fun hps => hp (hsub hps)

/-- A pop keeps every other part, the stack entries included. -/
theorem keepsAllBut_pop (s : State) : KeepsAllBut [.sp] s s.pop := by
  intro p hp
  cases p with
  | sp => simp at hp
  | _ => simp [Part.same]

theorem keepsAllBut_push (s : State) (w : Word) : KeepsAllBut [.sp, .stack] s (s.push w) := by
  intro p hp
  cases p with
  | sp | stack => simp at hp
  | _ => simp [Part.same]

@[simp] theorem State.stackAt_push_top (s : State) (w : Word) : (s.push w).stackAt (s.sp + 1#4) = w := by
  simp [State.stackAt_push]

theorem State.stackAt_push_other (s : State) (w : Word) {j : Nibble} (h : j ≠ s.sp + 1#4) :
    (s.push w).stackAt j = s.stackAt j := by
  simp [State.stackAt_push, h]

end Sys2Proof.Machine
end

section
/-!
The words of the control instructions and what the decoder answers for them (spec/30_encoding.md R104 to R106): families 0, 1, 2
and B take the whole address field, 3 and 4 a register and a byte, 5 and 9 two registers and a fixed nibble that must be 0.
-/
namespace Sys2Proof

theorem wordNNN_ne_of_nnnField_ne {op : Nibble} {nnn : Addr12} {w : Word} (h : nnn ≠ nnnField w) : wordNNN op nnn ≠ w := by
  rintro rfl
  exact h (nnnField_wordNNN op nnn).symm

theorem decodeFamily0_of_ne {w : Word} (hcls : w ≠ 0x00E0#16) (hret : w ≠ 0x00EE#16) :
    decodeFamily0 w = .instr (.sys (nnnField w)) := by
  rw [decodeFamily0, if_neg hcls, if_neg hret]

theorem decodeFamily5_of_n_zero {w : Word} (h : nField w = 0x0#4) :
    decodeFamily5 w = .instr (.seReg (xField w) (yField w)) :=
  if_pos h

theorem decodeFamily5_of_n_ne_zero {w : Word} (h : nField w ≠ 0x0#4) : decodeFamily5 w = .unrecognized w :=
  if_neg h

theorem decodeFamily9_of_n_zero {w : Word} (h : nField w = 0x0#4) :
    decodeFamily9 w = .instr (.sneReg (xField w) (yField w)) :=
  if_pos h

theorem decodeFamily9_of_n_ne_zero {w : Word} (h : nField w ≠ 0x0#4) : decodeFamily9 w = .unrecognized w :=
  if_neg h

theorem decode_wordNNN_sys {nnn : Addr12} (hcls : nnn ≠ 0x0E0#12) (hret : nnn ≠ 0x0EE#12) :
    decode (wordNNN 0x0#4 nnn) = .instr (.sys nnn) := by
  have hne_cls : wordNNN 0x0#4 nnn ≠ 0x00E0#16 := wordNNN_ne_of_nnnField_ne hcls
  have hne_ret : wordNNN 0x0#4 nnn ≠ 0x00EE#16 := wordNNN_ne_of_nnnField_ne hret
  rw [decode_op0 (opField_wordNNN _ _), decodeFamily0_of_ne hne_cls hne_ret, nnnField_wordNNN]

@[simp] theorem decode_wordNNN_jp (nnn : Addr12) : decode (wordNNN 0x1#4 nnn) = .instr (.jp nnn) := by
  rw [decode_op1 (opField_wordNNN _ _), nnnField_wordNNN]

@[simp] theorem decode_wordNNN_call (nnn : Addr12) : decode (wordNNN 0x2#4 nnn) = .instr (.call nnn) := by
  rw [decode_op2 (opField_wordNNN _ _), nnnField_wordNNN]

@[simp] theorem decode_wordNNN_jpV0 (nnn : Addr12) : decode (wordNNN 0xB#4 nnn) = .instr (.jpV0 nnn) := by
  rw [decode_opB (opField_wordNNN _ _), nnnField_wordNNN]

@[simp] theorem decode_wordXKK_seImm (x : Nibble) (kk : Byte) : decode (wordXKK 0x3#4 x kk) = .instr (.seImm x kk) := by
  rw [decode_op3 (opField_wordXKK _ _ _), xField_wordXKK, kkField_wordXKK]

@[simp] theorem decode_wordXKK_sneImm (x : Nibble) (kk : Byte) : decode (wordXKK 0x4#4 x kk) = .instr (.sneImm x kk) := by
  rw [decode_op4 (opField_wordXKK _ _ _), xField_wordXKK, kkField_wordXKK]

@[simp] theorem decode_wordXYN_seReg (x y : Nibble) : decode (wordXYN 0x5#4 x y 0x0#4) = .instr (.seReg x y) := by
  rw [decode_op5 (opField_wordXYN _ _ _ _), decodeFamily5_of_n_zero (nField_wordXYN _ _ _ _), xField_wordXYN, yField_wordXYN]

@[simp] theorem decode_wordXYN_sneReg (x y : Nibble) : decode (wordXYN 0x9#4 x y 0x0#4) = .instr (.sneReg x y) := by
  rw [decode_op9 (opField_wordXYN _ _ _ _), decodeFamily9_of_n_zero (nField_wordXYN _ _ _ _), xField_wordXYN, yField_wordXYN]

theorem decode_wordXYN_op5_unrecognized (x y : Nibble) {n : Nibble} (h : n ≠ 0x0#4) :
    decode (wordXYN 0x5#4 x y n) = .unrecognized (wordXYN 0x5#4 x y n) := by
  rw [decode_op5 (opField_wordXYN _ _ _ _), decodeFamily5_of_n_ne_zero (by rwa [nField_wordXYN])]

theorem decode_wordXYN_op9_unrecognized (x y : Nibble) {n : Nibble} (h : n ≠ 0x0#4) :
    decode (wordXYN 0x9#4 x y n) = .unrecognized (wordXYN 0x9#4 x y n) := by
  rw [decode_op9 (opField_wordXYN _ _ _ _), decodeFamily9_of_n_ne_zero (by rwa [nField_wordXYN])]

end Sys2Proof
end

section
/-!
Transfers and the stack (spec/41_control.md R155 to R161, R171): the outcome of each instruction in terms of the updates of
`Sys2Proof/Laws/State.lean`, then the statement about it.
-/
namespace Sys2Proof.Machine

/-! ## SYS -/

@[simp] theorem exec_sys (nnn : Addr12) (s : State) : exec (.sys nnn) s = .next s := rfl

/-- Settles O12: family 0 keeps every address field but those of the two exact words for SYS. -/
theorem sysIsNoOperation : Obligations.SysIsNoOperation :=
  ⟨fun _ => decode_wordNNN_sys, exec_sys⟩

/-! ## RET -/

theorem exec_ret_of_nonempty {s : State} (h : s.sp ≠ 0x0#4) :
    exec .ret s = .next (s.writePc (s.stackAt s.sp)).pop :=
  if_neg h

theorem exec_ret_of_empty {s : State} (h : s.sp = 0x0#4) : exec .ret s = .fault (.stackUnderflow 0x0#4) := by
  rw [← h]
  exact if_pos h

/-- Settles O13: a RET is a write of `pc` and a pop, whose frames compose; `sp` is not 0, so taking one away does not wrap. -/
theorem retPopsTheReturnAddress : Obligations.RetPopsTheReturnAddress := by
  refine ⟨by decide, fun s => ⟨fun hsp => ?_, exec_ret_of_empty⟩⟩
  have hsp_pop : (s.sp - 1#4).toNat + 1 = s.sp.toNat := by bv_omega
  exact ⟨_, exec_ret_of_nonempty hsp, rfl, hsp_pop, (keepsAllBut_writePc s _).trans (keepsAllBut_pop _)⟩

/-! ## JP and JP V0 -/

theorem toNat_addr16 (nnn : Addr12) : (addr16 nnn).toNat = nnn.toNat :=
  BitVec.toNat_setWidth_of_le (by decide)

theorem toNat_byte16 (b : Byte) : (byte16 b).toNat = b.toNat :=
  BitVec.toNat_setWidth_of_le (by decide)

/-- A 12-bit address and a byte add up to at most 0x10FE, far from 2^16. -/
theorem toNat_addr16_add_byte16 (nnn : Addr12) (b : Byte) : (addr16 nnn + byte16 b).toNat = nnn.toNat + b.toNat := by
  have hnnn := nnn.isLt
  have hb := b.isLt
  rw [BitVec.toNat_add, toNat_addr16, toNat_byte16]
  omega

@[simp] theorem exec_jp (nnn : Addr12) (s : State) : exec (.jp nnn) s = .next (s.writePc (addr16 nnn)) := rfl

@[simp] theorem exec_jpV0 (nnn : Addr12) (s : State) :
    exec (.jpV0 nnn) s = .next (s.writePc (addr16 nnn + byte16 (s.readV 0x0#4))) := rfl

/-- Settles O14: zero-extension keeps the value of `nnn`, and only `pc` is written. -/
theorem jpJumpsToTheAddress : Obligations.JpJumpsToTheAddress := fun nnn s =>
  ⟨decode_wordNNN_jp nnn, _, exec_jp nnn s, toNat_addr16 nnn, keepsAllBut_writePc s _⟩

/-- Settles O20: the 16-bit sum is the exact one, and the widths of its two terms bound it. -/
theorem jpV0JumpsToTheSum : Obligations.JpV0JumpsToTheSum := by
  intro nnn s
  have hsum := toNat_addr16_add_byte16 nnn (s.readV 0x0#4)
  have hbound : (addr16 nnn + byte16 (s.readV 0x0#4)).toNat ≤ 0x10FE := by
    have hnnn := nnn.isLt
    have hv := (s.readV 0x0#4).isLt
    omega
  exact ⟨decode_wordNNN_jpV0 nnn, _, exec_jpV0 nnn s, hsum, hbound, keepsAllBut_writePc s _⟩

/-! ## CALL -/

theorem exec_call_of_room {nnn : Addr12} {s : State} (h : s.sp ≠ 0xF#4) :
    exec (.call nnn) s = .next ((s.push s.pc).writePc (addr16 nnn)) :=
  if_neg h

theorem exec_call_of_full {nnn : Addr12} {s : State} (h : s.sp = 0xF#4) :
    exec (.call nnn) s = .fault (.stackOverflow 0xF#4) := by
  rw [← h]
  exact if_pos h

theorem keepsAllBut_call (s : State) (w target : Word) :
    KeepsAllBut [.pc, .sp, .stack] s ((s.push w).writePc target) :=
  ((keepsAllBut_push s w).trans (keepsAllBut_writePc _ target)).mono (by decide)

/-- Settles O15: a CALL is a push and a write of `pc`; `sp` is not 15, so adding one does not wrap and the new top is a new
entry. -/
theorem callPushesAndJumps : Obligations.CallPushesAndJumps := by
  refine fun nnn s => ⟨decode_wordNNN_call nnn, fun hsp => ?_, exec_call_of_full⟩
  have hsp_push : (s.sp + 1#4).toNat = s.sp.toNat + 1 := by bv_omega
  exact ⟨_, exec_call_of_room hsp, hsp_push, s.stackAt_push_top s.pc, fun _ hj => s.stackAt_push_other s.pc hj,
    toNat_addr16 nnn, keepsAllBut_call s s.pc _⟩

end Sys2Proof.Machine
end

section
/-!
The conditional skips on registers and bytes (spec/41_control.md R151, R163 to R169): the two conditions are said once, for any
two bytes, and the four instructions use them.
-/
namespace Sys2Proof.Machine

theorem keepsAllBut_skipIf (cond : Bool) (s : State) : KeepsAllBut [.pc] s (skipIf cond s) := by
  rw [skipIf_eq]
  exact keepsAllBut_writePc s _

theorem skipIf_beq_spec (a b : Byte) (s : State) :
    (a = b → (skipIf (a == b) s).pc = s.pc + 2#16) ∧ (a ≠ b → (skipIf (a == b) s).pc = s.pc) ∧
      KeepsAllBut [.pc] s (skipIf (a == b) s) :=
  ⟨fun h => by simp [h], fun h => by simp [h], keepsAllBut_skipIf _ s⟩

theorem skipIf_bne_spec (a b : Byte) (s : State) :
    (a ≠ b → (skipIf (a != b) s).pc = s.pc + 2#16) ∧ (a = b → (skipIf (a != b) s).pc = s.pc) ∧
      KeepsAllBut [.pc] s (skipIf (a != b) s) :=
  ⟨fun h => by simp [h], fun h => by simp [h], keepsAllBut_skipIf _ s⟩

theorem exec_seImm (x : Nibble) (kk : Byte) (s : State) :
    exec (.seImm x kk) s = .next (skipIf (s.readV x == kk) s) := rfl

theorem exec_sneImm (x : Nibble) (kk : Byte) (s : State) :
    exec (.sneImm x kk) s = .next (skipIf (s.readV x != kk) s) := rfl

theorem exec_seReg (x y : Nibble) (s : State) :
    exec (.seReg x y) s = .next (skipIf (s.readV x == s.readV y) s) := rfl

theorem exec_sneReg (x y : Nibble) (s : State) :
    exec (.sneReg x y) s = .next (skipIf (s.readV x != s.readV y) s) := rfl

/-- Settles O18: the two skips on the register and the byte of the word. -/
theorem immediateSkipsCompareWithTheByte : Obligations.ImmediateSkipsCompareWithTheByte := fun x kk s =>
  ⟨decode_wordXKK_seImm x kk, decode_wordXKK_sneImm x kk,
    ⟨_, exec_seImm x kk s, skipIf_beq_spec _ _ s⟩, ⟨_, exec_sneImm x kk s, skipIf_bne_spec _ _ s⟩⟩

/-- Settles O19: the two skips on the two registers; families 5 and 9 reject a fixed nibble that is not 0. -/
theorem registerSkipsCompareTheRegisters : Obligations.RegisterSkipsCompareTheRegisters := by
  constructor
  · intro x y s
    exact ⟨decode_wordXYN_seReg x y, decode_wordXYN_sneReg x y,
      ⟨_, exec_seReg x y s, skipIf_beq_spec _ _ s⟩, ⟨_, exec_sneReg x y s, skipIf_bne_spec _ _ s⟩⟩
  · intro x y n hn
    exact ⟨decode_wordXYN_op5_unrecognized x y hn, decode_wordXYN_op9_unrecognized x y hn⟩

end Sys2Proof.Machine
end

section
/-!
The updates of the loads and the ALU and what they leave alone, beside `keepsAllBut_writePc` above: a register, `I`, the count of
entropy bytes, and the pair of a result and a flag (spec/42_load_alu.md R200, R210).
-/
namespace Sys2Proof.Machine

theorem keepsAllBut_writeV (s : State) (x : Nibble) (b : Byte) : KeepsAllBut [.regs] s (s.writeV x b) := by
  intro p hp
  cases p with
  | regs => simp at hp
  | _ => simp [Part.same]

theorem keepsRegsBut_writeV (s : State) (x : Nibble) (b : Byte) : KeepsRegsBut [x] s (s.writeV x b) :=
  fun y hy => s.readV_writeV_other x y b (List.mem_singleton.not.1 hy)

theorem keepsAllBut_writeI (s : State) (w : Word) : KeepsAllBut [.index] s (s.writeI w) := by
  intro p hp
  cases p with
  | index => simp at hp
  | _ => simp [Part.same]

theorem keepsAllBut_countEntropy (s : State) : KeepsAllBut [.entropy] s s.countEntropy := by
  intro p hp
  cases p with
  | entropy => simp at hp
  | _ => simp [Part.same]

theorem keepsAllBut_writeResultAndFlag (x : Nibble) (rf : Byte × Byte) (s : State) :
    KeepsAllBut [.regs] s (writeResultAndFlag x rf s) :=
  ((keepsAllBut_writeV s x rf.1).trans (keepsAllBut_writeV _ 0xF#4 rf.2)).mono (by decide)

theorem keepsRegsBut_writeResultAndFlag (x : Nibble) (rf : Byte × Byte) (s : State) :
    KeepsRegsBut [x, 0xF#4] s (writeResultAndFlag x rf s) := by
  intro y hy
  obtain ⟨hyx, hyf⟩ : y ≠ x ∧ y ≠ 0xF#4 := by simpa using hy
  rw [readV_writeResultAndFlag, if_neg hyf, if_neg hyx]

theorem readV_writeResultAndFlag_flag (x : Nibble) (rf : Byte × Byte) (s : State) :
    (writeResultAndFlag x rf s).readV 0xF#4 = rf.2 := by
  rw [readV_writeResultAndFlag, if_pos rfl]

theorem readV_writeResultAndFlag_result {x : Nibble} (rf : Byte × Byte) (s : State) (hx : x ≠ 0xF#4) :
    (writeResultAndFlag x rf s).readV x = rf.1 := by
  rw [readV_writeResultAndFlag, if_neg hx, if_pos rfl]

end Sys2Proof.Machine
end

section
/-!
The words of the loads and the ALU and what the decoder answers for them (spec/30_encoding.md R104): families 6, 7 and C take a
register and a byte, A the address field, and in family 8 the last nibble selects the operation.
-/
namespace Sys2Proof

@[simp] theorem decode_wordXKK_ldImm (x : Nibble) (kk : Byte) : decode (wordXKK 0x6#4 x kk) = .instr (.ldImm x kk) := by
  rw [decode_op6 (opField_wordXKK _ _ _), xField_wordXKK, kkField_wordXKK]

@[simp] theorem decode_wordXKK_addImm (x : Nibble) (kk : Byte) : decode (wordXKK 0x7#4 x kk) = .instr (.addImm x kk) := by
  rw [decode_op7 (opField_wordXKK _ _ _), xField_wordXKK, kkField_wordXKK]

@[simp] theorem decode_wordXKK_rnd (x : Nibble) (kk : Byte) : decode (wordXKK 0xC#4 x kk) = .instr (.rnd x kk) := by
  rw [decode_opC (opField_wordXKK _ _ _), xField_wordXKK, kkField_wordXKK]

@[simp] theorem decode_wordNNN_ldI (nnn : Addr12) : decode (wordNNN 0xA#4 nnn) = .instr (.ldI nnn) := by
  rw [decode_opA (opField_wordNNN _ _), nnnField_wordNNN]

theorem decode_wordXYN_op8 (x y n : Nibble) : decode (wordXYN 0x8#4 x y n) = decodeFamily8 (wordXYN 0x8#4 x y n) :=
  decode_op8 (opField_wordXYN _ _ _ _)

@[simp] theorem decode_wordXYN_ldReg (x y : Nibble) : decode (wordXYN 0x8#4 x y 0x0#4) = .instr (.ldReg x y) := by
  simp [decode_wordXYN_op8, decodeFamily8]

@[simp] theorem decode_wordXYN_orReg (x y : Nibble) : decode (wordXYN 0x8#4 x y 0x1#4) = .instr (.orReg x y) := by
  simp [decode_wordXYN_op8, decodeFamily8]

@[simp] theorem decode_wordXYN_andReg (x y : Nibble) : decode (wordXYN 0x8#4 x y 0x2#4) = .instr (.andReg x y) := by
  simp [decode_wordXYN_op8, decodeFamily8]

@[simp] theorem decode_wordXYN_xorReg (x y : Nibble) : decode (wordXYN 0x8#4 x y 0x3#4) = .instr (.xorReg x y) := by
  simp [decode_wordXYN_op8, decodeFamily8]

@[simp] theorem decode_wordXYN_addReg (x y : Nibble) : decode (wordXYN 0x8#4 x y 0x4#4) = .instr (.addReg x y) := by
  simp [decode_wordXYN_op8, decodeFamily8]

@[simp] theorem decode_wordXYN_sub (x y : Nibble) : decode (wordXYN 0x8#4 x y 0x5#4) = .instr (.sub x y) := by
  simp [decode_wordXYN_op8, decodeFamily8]

@[simp] theorem decode_wordXYN_shr (x y : Nibble) : decode (wordXYN 0x8#4 x y 0x6#4) = .instr (.shr x y) := by
  simp [decode_wordXYN_op8, decodeFamily8]

@[simp] theorem decode_wordXYN_subn (x y : Nibble) : decode (wordXYN 0x8#4 x y 0x7#4) = .instr (.subn x y) := by
  simp [decode_wordXYN_op8, decodeFamily8]

@[simp] theorem decode_wordXYN_shl (x y : Nibble) : decode (wordXYN 0x8#4 x y 0xE#4) = .instr (.shl x y) := by
  simp [decode_wordXYN_op8, decodeFamily8]

end Sys2Proof
end

section
/-!
Loads, the immediate ADD, the logic operations, `LD I` and `RND` (spec/42_load_alu.md R201 to R208, R221, R223): each is one
register write, or one write of `I`, and none writes a flag.
-/
namespace Sys2Proof.Machine

theorem exec_ldImm (x : Nibble) (kk : Byte) (s : State) : exec (.ldImm x kk) s = .next (s.writeV x kk) := rfl

theorem exec_addImm (x : Nibble) (kk : Byte) (s : State) :
    exec (.addImm x kk) s = .next (s.writeV x (s.readV x + kk)) := rfl

theorem exec_ldReg (x y : Nibble) (s : State) : exec (.ldReg x y) s = .next (s.writeV x (s.readV y)) := rfl

theorem exec_orReg (x y : Nibble) (s : State) :
    exec (.orReg x y) s = .next (s.writeV x (s.readV x ||| s.readV y)) := rfl

theorem exec_andReg (x y : Nibble) (s : State) :
    exec (.andReg x y) s = .next (s.writeV x (s.readV x &&& s.readV y)) := rfl

theorem exec_xorReg (x y : Nibble) (s : State) :
    exec (.xorReg x y) s = .next (s.writeV x (s.readV x ^^^ s.readV y)) := rfl

theorem exec_ldI (nnn : Addr12) (s : State) : exec (.ldI nnn) s = .next (s.writeI (addr16 nnn)) := rfl

theorem exec_rnd (x : Nibble) (kk : Byte) (s : State) :
    exec (.rnd x kk) s = .next (s.countEntropy.writeV x (Config.entropy s.entropyCount &&& kk)) := rfl

/-- Settles O22: the three are register writes; the sum of two bytes is taken mod 256. -/
theorem loadsAndImmediateAddWriteOneRegister : Obligations.LoadsAndImmediateAddWriteOneRegister := by
  refine ⟨fun x kk s => ?_, fun x kk s => ?_, fun x y s => ?_⟩
  · exact ⟨decode_wordXKK_ldImm x kk, _, exec_ldImm x kk s, s.readV_writeV_same x _, keepsRegsBut_writeV s x _,
      keepsAllBut_writeV s x _⟩
  · refine ⟨decode_wordXKK_addImm x kk, _, exec_addImm x kk s, ?_, keepsRegsBut_writeV s x _, keepsAllBut_writeV s x _⟩
    rw [State.readV_writeV_same, BitVec.toNat_add]
  · exact ⟨decode_wordXYN_ldReg x y, _, exec_ldReg x y s, s.readV_writeV_same x _, keepsRegsBut_writeV s x _,
      keepsAllBut_writeV s x _⟩

/-- Settles O23: the bits of the byte written are the library's laws of the bitwise operators. -/
theorem logicWorksBitByBit : Obligations.LogicWorksBitByBit := by
  refine fun x y s => ⟨decode_wordXYN_orReg x y, decode_wordXYN_andReg x y, decode_wordXYN_xorReg x y,
    ⟨_, exec_orReg x y s, keepsRegsBut_writeV s x _, keepsAllBut_writeV s x _, fun k _ => ?_⟩,
    ⟨_, exec_andReg x y s, keepsRegsBut_writeV s x _, keepsAllBut_writeV s x _, fun k _ => ?_⟩,
    ⟨_, exec_xorReg x y s, keepsRegsBut_writeV s x _, keepsAllBut_writeV s x _, fun k _ => ?_⟩⟩
  · rw [State.readV_writeV_same, BitVec.getLsbD_or]
  · rw [State.readV_writeV_same, BitVec.getLsbD_and]
  · rw [State.readV_writeV_same, BitVec.getLsbD_xor]

/-- Settles O29: zero-extension keeps the value of `nnn`, and only `I` is written. -/
theorem ldILoadsTheAddress : Obligations.LdILoadsTheAddress := fun nnn s =>
  ⟨decode_wordNNN_ldI nnn, _, exec_ldI nnn s, toNat_addr16 nnn, keepsAllBut_writeI s _⟩

/-- Settles O30: RND counts one byte and writes one register, whatever the byte and the mask; a mask of 0 leaves no bit. -/
theorem rndMasksOneEntropyByte : Obligations.RndMasksOneEntropyByte := by
  intro x kk s
  have hread := s.countEntropy.readV_writeV_same x (Config.entropy s.entropyCount &&& kk)
  refine ⟨decode_wordXKK_rnd x kk, _, exec_rnd x kk s, hread, ?_, rfl, ?_, ?_⟩
  · rintro rfl
    rw [hread, BitVec.and_zero]
  · intro y hy
    rw [keepsRegsBut_writeV s.countEntropy x _ y hy, State.readV_countEntropy]
  · exact ((keepsAllBut_countEntropy s).trans (keepsAllBut_writeV _ x _)).mono (by decide)

end Sys2Proof.Machine
end

section
/-!
The operations that write VF (spec/42_load_alu.md R210 to R219): the result and the flag of each as numbers, then the instructions,
which write them with `writeResultAndFlag`.
-/
namespace Sys2Proof.Machine

/-! ## Results and flags as numbers -/

theorem flagByte_decide_of {p : Prop} [Decidable p] (h : p) : flagByte (decide p) = 0x01#8 := by
  rw [decide_eq_true h, flagByte, if_pos rfl]

theorem flagByte_decide_of_not {p : Prop} [Decidable p] (h : ¬ p) : flagByte (decide p) = 0x00#8 := by
  rw [decide_eq_false h, flagByte, if_neg Bool.false_ne_true]

theorem toNat_addWithCarry_result (a b : Byte) : (addWithCarry a b).1.toNat = (a.toNat + b.toNat) % 256 :=
  BitVec.toNat_ofNat _ 8

theorem toNat_subStrict_result (a b : Byte) : ((subStrict a b).1.toNat : Int) = (a.toNat - b.toNat : Int) % 256 := by
  have ha := a.isLt
  have hb := b.isLt
  rw [subStrict, BitVec.toNat_sub]
  omega

theorem toNat_shiftRight_result (a : Byte) : (shiftRight a).1.toNat = a.toNat / 2 := by
  rw [shiftRight, BitVec.toNat_ushiftRight, Nat.shiftRight_eq_div_pow, pow_one]

theorem toNat_shiftRight_flag (a : Byte) : (shiftRight a).2.toNat = a.toNat % 2 := by
  rw [shiftRight, BitVec.toNat_and]
  exact Nat.and_one_is_mod _

theorem toNat_shiftLeft_result (a : Byte) : (shiftLeft a).1.toNat = 2 * a.toNat % 256 := by
  rw [shiftLeft, BitVec.toNat_shiftLeft, Nat.shiftLeft_eq, pow_one, Nat.mul_comm]

/-- The old bit 7 of a byte is its quotient by 128, which is at most 1. -/
theorem toNat_shiftLeft_flag (a : Byte) : (shiftLeft a).2.toNat = a.toNat / 128 := by
  have hquot : a.toNat / 128 < 2 := by omega
  calc (shiftLeft a).2.toNat = (a.toNat >>> 7) % 2 := by
        rw [shiftLeft, BitVec.toNat_and, BitVec.toNat_ushiftRight]
        exact Nat.and_one_is_mod _
    _ = a.toNat / 128 % 2 := by rw [Nat.shiftRight_eq_div_pow]
    _ = a.toNat / 128 := Nat.mod_eq_of_lt hquot

/-! ## The instructions -/

theorem exec_addReg (x y : Nibble) (s : State) :
    exec (.addReg x y) s = .next (writeResultAndFlag x (addWithCarry (s.readV x) (s.readV y)) s) := rfl

theorem exec_sub (x y : Nibble) (s : State) :
    exec (.sub x y) s = .next (writeResultAndFlag x (subStrict (s.readV x) (s.readV y)) s) := rfl

theorem exec_shr (x y : Nibble) (s : State) :
    exec (.shr x y) s = .next (writeResultAndFlag x (shiftRight (s.readV x)) s) := rfl

theorem exec_subn (x y : Nibble) (s : State) :
    exec (.subn x y) s = .next (writeResultAndFlag x (subStrict (s.readV y) (s.readV x)) s) := rfl

theorem exec_shl (x y : Nibble) (s : State) :
    exec (.shl x y) s = .next (writeResultAndFlag x (shiftLeft (s.readV x)) s) := rfl

/-- Settles O24: the flag is the comparison of the unbounded sum with 255. -/
theorem addRegWritesSumAndCarry : Obligations.AddRegWritesSumAndCarry := by
  intro x y s
  refine ⟨decode_wordXYN_addReg x y, _, exec_addReg x y s, fun hx => ?_, fun hcarry => ?_, fun hfits => ?_,
    keepsRegsBut_writeResultAndFlag x _ s, keepsAllBut_writeResultAndFlag x _ s⟩
  · rw [readV_writeResultAndFlag_result _ s hx, toNat_addWithCarry_result]
  · rw [readV_writeResultAndFlag_flag]
    exact flagByte_decide_of hcarry
  · rw [readV_writeResultAndFlag_flag]
    exact flagByte_decide_of_not (Nat.not_lt.2 hfits)

/-- What a difference `a - b` written to `V[x]` with its strict flag leaves, for any two bytes: SUB and SUBN differ in which is
which. -/
theorem writeResultAndFlag_subStrict_spec (x : Nibble) (a b : Byte) (s : State) :
    (x ≠ 0xF#4 →
      (((writeResultAndFlag x (subStrict a b) s).readV x).toNat : Int) = (a.toNat - b.toNat : Int) % 256) ∧
    (b.toNat < a.toNat → (writeResultAndFlag x (subStrict a b) s).readV 0xF#4 = 0x01#8) ∧
    (a.toNat ≤ b.toNat → (writeResultAndFlag x (subStrict a b) s).readV 0xF#4 = 0x00#8) ∧
    KeepsRegsBut [x, 0xF#4] s (writeResultAndFlag x (subStrict a b) s) ∧
    KeepsAllBut [.regs] s (writeResultAndFlag x (subStrict a b) s) := by
  refine ⟨fun hx => ?_, fun hgt => ?_, fun hle => ?_, keepsRegsBut_writeResultAndFlag x _ s,
    keepsAllBut_writeResultAndFlag x _ s⟩
  · rw [readV_writeResultAndFlag_result _ s hx, toNat_subStrict_result]
  · rw [readV_writeResultAndFlag_flag]
    exact flagByte_decide_of hgt
  · rw [readV_writeResultAndFlag_flag]
    exact flagByte_decide_of_not (Nat.not_lt.2 hle)

/-- Settles O25: the difference is `V[x] - V[y]`. -/
theorem subWritesDifferenceAndStrictFlag : Obligations.SubWritesDifferenceAndStrictFlag := fun x y s =>
  ⟨decode_wordXYN_sub x y, _, exec_sub x y s, writeResultAndFlag_subStrict_spec x (s.readV x) (s.readV y) s⟩

/-- Settles O27: the difference is `V[y] - V[x]`. -/
theorem subnWritesDifferenceAndStrictFlag : Obligations.SubnWritesDifferenceAndStrictFlag := fun x y s =>
  ⟨decode_wordXYN_subn x y, _, exec_subn x y s, writeResultAndFlag_subStrict_spec x (s.readV y) (s.readV x) s⟩

/-- Settles O26: the quotient and the remainder by 2. -/
theorem shrWritesHalfAndTheBitShiftedOut : Obligations.ShrWritesHalfAndTheBitShiftedOut := by
  intro x y s
  refine ⟨decode_wordXYN_shr x y, _, exec_shr x y s, fun hx => ?_, ?_, keepsRegsBut_writeResultAndFlag x _ s,
    keepsAllBut_writeResultAndFlag x _ s⟩
  · rw [readV_writeResultAndFlag_result _ s hx, toNat_shiftRight_result]
  · rw [readV_writeResultAndFlag_flag, toNat_shiftRight_flag]

/-- Settles O28: the double mod 256, and the quotient by 128. -/
theorem shlWritesDoubleAndTheBitShiftedOut : Obligations.ShlWritesDoubleAndTheBitShiftedOut := by
  intro x y s
  refine ⟨decode_wordXYN_shl x y, _, exec_shl x y s, fun hx => ?_, ?_, keepsRegsBut_writeResultAndFlag x _ s,
    keepsAllBut_writeResultAndFlag x _ s⟩
  · rw [readV_writeResultAndFlag_result _ s hx, toNat_shiftLeft_result]
  · rw [readV_writeResultAndFlag_flag, toNat_shiftLeft_flag]

end Sys2Proof.Machine
end

section
/-!
CLS (spec/43_display.md R253): what a whole-bitmap write leaves alone, the bytes of the blank bitmap, and the statement about the
instruction, which writes the one over the other.
-/
namespace Sys2Proof.Machine

theorem keepsAllBut_writeDisplay (s : State) (d : Display) : KeepsAllBut [.display] s (s.writeDisplay d) := by
  intro p hp
  cases p with
  | display => simp at hp
  | _ => simp [Part.same]

@[simp] theorem blankDisplay_get (b : Fin 256) : blankDisplay.get b = 0x00#8 := by
  rw [Vector.get_eq_getElem, blankDisplay, Vector.getElem_replicate]

@[simp] theorem decode_cls : decode 0x00E0#16 = .instr .cls := by
  rw [decode_op0 (by decide), decodeFamily0, if_pos rfl]

theorem exec_cls (s : State) : exec .cls s = .next (s.writeDisplay blankDisplay) := rfl

/-- Settles O31: CLS is one write of the blank bitmap. -/
theorem clsClearsTheDisplay : Obligations.ClsClearsTheDisplay :=
  ⟨decode_cls, fun s => ⟨_, exec_cls s, blankDisplay_get, keepsAllBut_writeDisplay s _⟩⟩

end Sys2Proof.Machine
end

section
/-!
The timer ticks (spec/60_exceptions.md R353): the writes of DT and ST and what they leave alone, a ticked byte as a number, and the
statement about the two ticks alone and one after the other.
-/
namespace Sys2Proof.Machine

theorem keepsAllBut_writeDt (s : State) (b : Byte) : KeepsAllBut [.delay] s (s.writeDt b) := by
  intro p hp
  cases p with
  | delay => simp at hp
  | _ => simp [Part.same]

theorem keepsAllBut_writeSt (s : State) (b : Byte) : KeepsAllBut [.sound] s (s.writeSt b) := by
  intro p hp
  cases p with
  | sound => simp at hp
  | _ => simp [Part.same]

/-- The truncated subtraction of `Nat` is the clamp at 0. -/
@[simp] theorem toNat_tickByte (b : Byte) : (tickByte b).toNat = b.toNat - 1 := by
  unfold tickByte
  split
  case isTrue hpos => exact BitVec.toNat_sub_of_le (BitVec.le_def.2 hpos)
  case isFalse hzero => omega

/-- Settles O58: a tick is one write of the ticked byte, and TimerTick is the write of DT and then that of ST. -/
theorem timerTickDecrementsAndClamps : Obligations.TimerTickDecrementsAndClamps := by
  intro s
  have hdelay : KeepsAllBut [.delay] s s.tickDelay := keepsAllBut_writeDt s _
  have hsound (t : State) : KeepsAllBut [.sound] t t.tickSound := keepsAllBut_writeSt t _
  refine ⟨?_, hdelay, ?_, hsound s, ?_, ?_, hdelay.trans (hsound s.tickDelay)⟩
  · rw [State.tickDelay_eq, State.writeDt_dt, toNat_tickByte]
  · rw [State.tickSound_eq, State.writeSt_st, toNat_tickByte]
  · rw [State.timerTick_eq, State.writeSt_dt, State.writeDt_dt, toNat_tickByte]
  · rw [State.timerTick_eq, State.writeSt_st, toNat_tickByte]

end Sys2Proof.Machine
end

section
/-!
The words of the remaining instructions and what the decoder answers for them (spec/30_encoding.md R104): `00EE`, family D, and the
families E and F, in which the low byte selects the operation.
-/
namespace Sys2Proof

@[simp] theorem decode_ret : decode 0x00EE#16 = .instr .ret := by
  rw [decode_op0 (by decide), decodeFamily0, if_neg (by decide), if_pos rfl]

@[simp] theorem decode_wordXYN_drw (x y n : Nibble) : decode (wordXYN 0xD#4 x y n) = .instr (.drw x y n) := by
  rw [decode_opD (opField_wordXYN _ _ _ _), xField_wordXYN, yField_wordXYN, nField_wordXYN]

theorem decode_wordXKK_opE (x : Nibble) (kk : Byte) : decode (wordXKK 0xE#4 x kk) = decodeFamilyE (wordXKK 0xE#4 x kk) :=
  decode_opE (opField_wordXKK _ _ _)

theorem decode_wordXKK_opF (x : Nibble) (kk : Byte) : decode (wordXKK 0xF#4 x kk) = decodeFamilyF (wordXKK 0xF#4 x kk) :=
  decode_opF (opField_wordXKK _ _ _)

@[simp] theorem decode_wordXKK_skp (x : Nibble) : decode (wordXKK 0xE#4 x 0x9E#8) = .instr (.skp x) := by
  simp [decode_wordXKK_opE, decodeFamilyE]

@[simp] theorem decode_wordXKK_sknp (x : Nibble) : decode (wordXKK 0xE#4 x 0xA1#8) = .instr (.sknp x) := by
  simp [decode_wordXKK_opE, decodeFamilyE]

@[simp] theorem decode_wordXKK_ldVDt (x : Nibble) : decode (wordXKK 0xF#4 x 0x07#8) = .instr (.ldVDt x) := by
  simp [decode_wordXKK_opF, decodeFamilyF]

@[simp] theorem decode_wordXKK_ldVK (x : Nibble) : decode (wordXKK 0xF#4 x 0x0A#8) = .instr (.ldVK x) := by
  simp [decode_wordXKK_opF, decodeFamilyF]

@[simp] theorem decode_wordXKK_ldDtV (x : Nibble) : decode (wordXKK 0xF#4 x 0x15#8) = .instr (.ldDtV x) := by
  simp [decode_wordXKK_opF, decodeFamilyF]

@[simp] theorem decode_wordXKK_ldStV (x : Nibble) : decode (wordXKK 0xF#4 x 0x18#8) = .instr (.ldStV x) := by
  simp [decode_wordXKK_opF, decodeFamilyF]

@[simp] theorem decode_wordXKK_addIV (x : Nibble) : decode (wordXKK 0xF#4 x 0x1E#8) = .instr (.addIV x) := by
  simp [decode_wordXKK_opF, decodeFamilyF]

@[simp] theorem decode_wordXKK_ldFV (x : Nibble) : decode (wordXKK 0xF#4 x 0x29#8) = .instr (.ldFV x) := by
  simp [decode_wordXKK_opF, decodeFamilyF]

@[simp] theorem decode_wordXKK_ldBV (x : Nibble) : decode (wordXKK 0xF#4 x 0x33#8) = .instr (.ldBV x) := by
  simp [decode_wordXKK_opF, decodeFamilyF]

@[simp] theorem decode_wordXKK_ldMemV (x : Nibble) : decode (wordXKK 0xF#4 x 0x55#8) = .instr (.ldMemV x) := by
  simp [decode_wordXKK_opF, decodeFamilyF]

@[simp] theorem decode_wordXKK_ldVMem (x : Nibble) : decode (wordXKK 0xF#4 x 0x65#8) = .instr (.ldVMem x) := by
  simp [decode_wordXKK_opF, decodeFamilyF]

end Sys2Proof
end

section
/-!
The round trips of decoder and encoder (spec/30_encoding.md R100 to R105). Forwards, the word of each form decodes to its instruction;
backwards, a decoded word is assembled from its own fields and the selector its family tested.
-/
namespace Sys2Proof

/-! ## From the instruction -/

theorem decode_encode {i : Instr} (h : i.wellFormed = true) : decode (encode i) = .instr i := by
  cases i with
  | sys nnn =>
    obtain ⟨hcls, hret⟩ := Instr.wellFormed_sys_iff.1 h
    exact decode_wordNNN_sys hcls hret
  | _ => simp [encode]

/-- The two bytes of a word make it again, so the bytes decode as the word does. -/
theorem decodeBytes_encodeBytes {i : Instr} (h : i.wellFormed = true) (rest : List Byte) :
    decodeBytes (encodeBytes i ++ rest) = .ok (i, rest) := by
  simp [encodeBytes, bytesOfWord, decodeBytes, decode_encode h]

/-- Settles O1: both readings of an encoded instruction. -/
theorem decodeOfEncodeIsTheInstruction : Obligations.DecodeOfEncodeIsTheInstruction := fun _ h =>
  ⟨decode_encode h, decodeBytes_encodeBytes h⟩

/-! ## From the word -/

section
variable {w : Word} {i : Instr} {op : Nibble}

theorem wordNNN_of_op (hop : opField w = op) : wordNNN op (nnnField w) = w := by
  rw [← hop, wordNNN_fields]

theorem wordXKK_of_op (hop : opField w = op) : wordXKK op (xField w) (kkField w) = w := by
  rw [← hop, wordXKK_fields]

theorem wordXKK_of_op_kk {kk : Byte} (hop : opField w = op) (hkk : kkField w = kk) : wordXKK op (xField w) kk = w := by
  rw [← hkk, wordXKK_of_op hop]

theorem wordXYN_of_op_n {n : Nibble} (hop : opField w = op) (hn : nField w = n) :
    wordXYN op (xField w) (yField w) n = w := by
  rw [← hop, ← hn, wordXYN_fields]

theorem encode_of_decodeFamily0 (hop : opField w = 0x0#4) (h : decodeFamily0 w = .instr i) : encode i = w := by
  unfold decodeFamily0 at h
  split_ifs at h with hcls hret <;> cases h
  · exact hcls.symm
  · exact hret.symm
  · exact wordNNN_of_op hop

theorem encode_of_decodeFamily5 (hop : opField w = 0x5#4) (h : decodeFamily5 w = .instr i) : encode i = w := by
  unfold decodeFamily5 at h
  split_ifs at h with hn
  cases h
  exact wordXYN_of_op_n hop hn

/-- Whichever `n` was tested, the word is the one with that last nibble. -/
theorem encode_of_decodeFamily8 (hop : opField w = 0x8#4) (h : decodeFamily8 w = .instr i) : encode i = w := by
  unfold decodeFamily8 at h
  split_ifs at h <;> cases h <;> exact wordXYN_of_op_n hop (by assumption)

theorem encode_of_decodeFamily9 (hop : opField w = 0x9#4) (h : decodeFamily9 w = .instr i) : encode i = w := by
  unfold decodeFamily9 at h
  split_ifs at h with hn
  cases h
  exact wordXYN_of_op_n hop hn

theorem encode_of_decodeFamilyE (hop : opField w = 0xE#4) (h : decodeFamilyE w = .instr i) : encode i = w := by
  unfold decodeFamilyE at h
  split_ifs at h <;> cases h <;> exact wordXKK_of_op_kk hop (by assumption)

/-- Whichever `kk` was tested, the word is the one with that low byte. -/
theorem encode_of_decodeFamilyF (hop : opField w = 0xF#4) (h : decodeFamilyF w = .instr i) : encode i = w := by
  unfold decodeFamilyF at h
  split_ifs at h <;> cases h <;> exact wordXKK_of_op_kk hop (by assumption)

theorem encode_of_decode (h : decode w = .instr i) : encode i = w := by
  rcases opField_cases w with h0 | h1 | h2 | h3 | h4 | h5 | h6 | h7 | h8 | h9 | hA | hB | hC | hD | hE | hF
  · exact encode_of_decodeFamily0 h0 (decode_op0 h0 ▸ h)
  · cases (decode_op1 h1).symm.trans h; exact wordNNN_of_op h1
  · cases (decode_op2 h2).symm.trans h; exact wordNNN_of_op h2
  · cases (decode_op3 h3).symm.trans h; exact wordXKK_of_op h3
  · cases (decode_op4 h4).symm.trans h; exact wordXKK_of_op h4
  · exact encode_of_decodeFamily5 h5 (decode_op5 h5 ▸ h)
  · cases (decode_op6 h6).symm.trans h; exact wordXKK_of_op h6
  · cases (decode_op7 h7).symm.trans h; exact wordXKK_of_op h7
  · exact encode_of_decodeFamily8 h8 (decode_op8 h8 ▸ h)
  · exact encode_of_decodeFamily9 h9 (decode_op9 h9 ▸ h)
  · cases (decode_opA hA).symm.trans h; exact wordNNN_of_op hA
  · cases (decode_opB hB).symm.trans h; exact wordNNN_of_op hB
  · cases (decode_opC hC).symm.trans h; exact wordXKK_of_op hC
  · cases (decode_opD hD).symm.trans h; exact wordXYN_of_op_n hD rfl
  · exact encode_of_decodeFamilyE hE (decode_opE hE ▸ h)
  · exact encode_of_decodeFamilyF hF (decode_opF hF ▸ h)

end

/-- Settles O2: what decodes is well formed (the lemma of the cycle's section), and its fields make the word again. -/
theorem encodeOfDecodeIsTheWord : Obligations.EncodeOfDecodeIsTheWord := fun _ _ h =>
  ⟨wellFormed_of_decode h, encode_of_decode h⟩

end Sys2Proof
end

section
/-!
The decoder and the rows of spec/opcode_table.json: a word that has a row's match under its mask is the encoding of an instruction of
that row, so the round trip of the section above decides what it decodes to.
-/
namespace Sys2Proof

/-! ## A word's fields from its masked value -/

section
variable {w : Word} {op : Nibble}

theorem opField_of_mask (h : w &&& 0xF000#16 = wordNNN op 0#12) : opField w = op := by
  rw [← wordNNN_fields w, wordNNN_mask] at h
  simpa using congrArg opField h

theorem wordNNN_of_mask (h : w &&& 0xF000#16 = wordNNN op 0#12) : wordNNN op (nnnField w) = w :=
  wordNNN_of_op (opField_of_mask h)

theorem wordXKK_of_mask (h : w &&& 0xF000#16 = wordNNN op 0#12) : wordXKK op (xField w) (kkField w) = w :=
  wordXKK_of_op (opField_of_mask h)

theorem wordXYN_of_mask (h : w &&& 0xF000#16 = wordNNN op 0#12) : wordXYN op (xField w) (yField w) (nField w) = w :=
  wordXYN_of_op_n (opField_of_mask h) rfl

theorem wordXKK_of_mask_kk {kk : Byte} (h : w &&& 0xF0FF#16 = wordXKK op 0#4 kk) : wordXKK op (xField w) kk = w := by
  rw [← wordXKK_fields w, wordXKK_mask_kk] at h
  have hop : opField w = op := by simpa using congrArg opField h
  have hkk : kkField w = kk := by simpa using congrArg kkField h
  exact wordXKK_of_op_kk hop hkk

theorem wordXYN_of_mask_n {n : Nibble} (h : w &&& 0xF00F#16 = wordXYN op 0#4 0#4 n) :
    wordXYN op (xField w) (yField w) n = w := by
  rw [← wordXYN_fields w, wordXYN_mask_n] at h
  have hop : opField w = op := by simpa using congrArg opField h
  have hn : nField w = n := by simpa using congrArg nField h
  exact wordXYN_of_op_n hop hn

theorem eq_of_full_mask {v : Word} (h : w &&& 0xFFFF#16 = v) : v = w :=
  h.symm.trans BitVec.and_allOnes

end

/-! ## Rows -/

/-- The family `Row` of `Sys2Proof/Laws/PerInstr.lean`, put together. -/
theorem encode_mask_row : ∀ i : Instr, encode i &&& i.row.1 = i.row.2
  | .sys nnn => Laws.Row.sys nnn
  | .cls => Laws.Row.cls
  | .ret => Laws.Row.ret
  | .jp nnn => Laws.Row.jp nnn
  | .call nnn => Laws.Row.call nnn
  | .seImm x kk => Laws.Row.seImm x kk
  | .sneImm x kk => Laws.Row.sneImm x kk
  | .seReg x y => Laws.Row.seReg x y
  | .ldImm x kk => Laws.Row.ldImm x kk
  | .addImm x kk => Laws.Row.addImm x kk
  | .ldReg x y => Laws.Row.ldReg x y
  | .orReg x y => Laws.Row.orReg x y
  | .andReg x y => Laws.Row.andReg x y
  | .xorReg x y => Laws.Row.xorReg x y
  | .addReg x y => Laws.Row.addReg x y
  | .sub x y => Laws.Row.sub x y
  | .shr x y => Laws.Row.shr x y
  | .subn x y => Laws.Row.subn x y
  | .shl x y => Laws.Row.shl x y
  | .sneReg x y => Laws.Row.sneReg x y
  | .ldI nnn => Laws.Row.ldI nnn
  | .jpV0 nnn => Laws.Row.jpV0 nnn
  | .rnd x kk => Laws.Row.rnd x kk
  | .drw x y n => Laws.Row.drw x y n
  | .skp x => Laws.Row.skp x
  | .sknp x => Laws.Row.sknp x
  | .ldVDt x => Laws.Row.ldVDt x
  | .ldVK x => Laws.Row.ldVK x
  | .ldDtV x => Laws.Row.ldDtV x
  | .ldStV x => Laws.Row.ldStV x
  | .addIV x => Laws.Row.addIV x
  | .ldFV x => Laws.Row.ldFV x
  | .ldBV x => Laws.Row.ldBV x
  | .ldMemV x => Laws.Row.ldMemV x
  | .ldVMem x => Laws.Row.ldVMem x

/-- The instruction of the row whose operands are the word's own fields encodes to the word. -/
theorem exists_encode_of_row {w : Word} {k : Instr} (h : w &&& k.row.1 = k.row.2) :
    ∃ i : Instr, encode i = w ∧ i.row = k.row := by
  cases k with
  | sys => exact ⟨.sys (nnnField w), wordNNN_of_mask h, rfl⟩
  | cls => exact ⟨.cls, eq_of_full_mask h, rfl⟩
  | ret => exact ⟨.ret, eq_of_full_mask h, rfl⟩
  | jp => exact ⟨.jp (nnnField w), wordNNN_of_mask h, rfl⟩
  | call => exact ⟨.call (nnnField w), wordNNN_of_mask h, rfl⟩
  | seImm => exact ⟨.seImm (xField w) (kkField w), wordXKK_of_mask h, rfl⟩
  | sneImm => exact ⟨.sneImm (xField w) (kkField w), wordXKK_of_mask h, rfl⟩
  | seReg => exact ⟨.seReg (xField w) (yField w), wordXYN_of_mask_n h, rfl⟩
  | ldImm => exact ⟨.ldImm (xField w) (kkField w), wordXKK_of_mask h, rfl⟩
  | addImm => exact ⟨.addImm (xField w) (kkField w), wordXKK_of_mask h, rfl⟩
  | ldReg => exact ⟨.ldReg (xField w) (yField w), wordXYN_of_mask_n h, rfl⟩
  | orReg => exact ⟨.orReg (xField w) (yField w), wordXYN_of_mask_n h, rfl⟩
  | andReg => exact ⟨.andReg (xField w) (yField w), wordXYN_of_mask_n h, rfl⟩
  | xorReg => exact ⟨.xorReg (xField w) (yField w), wordXYN_of_mask_n h, rfl⟩
  | addReg => exact ⟨.addReg (xField w) (yField w), wordXYN_of_mask_n h, rfl⟩
  | sub => exact ⟨.sub (xField w) (yField w), wordXYN_of_mask_n h, rfl⟩
  | shr => exact ⟨.shr (xField w) (yField w), wordXYN_of_mask_n h, rfl⟩
  | subn => exact ⟨.subn (xField w) (yField w), wordXYN_of_mask_n h, rfl⟩
  | shl => exact ⟨.shl (xField w) (yField w), wordXYN_of_mask_n h, rfl⟩
  | sneReg => exact ⟨.sneReg (xField w) (yField w), wordXYN_of_mask_n h, rfl⟩
  | ldI => exact ⟨.ldI (nnnField w), wordNNN_of_mask h, rfl⟩
  | jpV0 => exact ⟨.jpV0 (nnnField w), wordNNN_of_mask h, rfl⟩
  | rnd => exact ⟨.rnd (xField w) (kkField w), wordXKK_of_mask h, rfl⟩
  | drw => exact ⟨.drw (xField w) (yField w) (nField w), wordXYN_of_mask h, rfl⟩
  | skp => exact ⟨.skp (xField w), wordXKK_of_mask_kk h, rfl⟩
  | sknp => exact ⟨.sknp (xField w), wordXKK_of_mask_kk h, rfl⟩
  | ldVDt => exact ⟨.ldVDt (xField w), wordXKK_of_mask_kk h, rfl⟩
  | ldVK => exact ⟨.ldVK (xField w), wordXKK_of_mask_kk h, rfl⟩
  | ldDtV => exact ⟨.ldDtV (xField w), wordXKK_of_mask_kk h, rfl⟩
  | ldStV => exact ⟨.ldStV (xField w), wordXKK_of_mask_kk h, rfl⟩
  | addIV => exact ⟨.addIV (xField w), wordXKK_of_mask_kk h, rfl⟩
  | ldFV => exact ⟨.ldFV (xField w), wordXKK_of_mask_kk h, rfl⟩
  | ldBV => exact ⟨.ldBV (xField w), wordXKK_of_mask_kk h, rfl⟩
  | ldMemV => exact ⟨.ldMemV (xField w), wordXKK_of_mask_kk h, rfl⟩
  | ldVMem => exact ⟨.ldVMem (xField w), wordXKK_of_mask_kk h, rfl⟩

/-- A SYS whose word is neither of the two exact ones is well formed. -/
theorem wellFormed_sys_of_encode_ne {nnn : Addr12} (hcls : encode (.sys nnn) ≠ 0x00E0#16)
    (hret : encode (.sys nnn) ≠ 0x00EE#16) : (Instr.sys nnn).wellFormed = true := by
  refine Instr.wellFormed_sys_iff.2 ⟨?_, ?_⟩
  · rintro rfl
    exact hcls (by decide)
  · rintro rfl
    exact hret (by decide)

/-- Settles O3: forwards by the row of the encoding; backwards the word encodes an instruction of the row, which is well formed because
the two exact words are excluded from the row of SYS. -/
theorem decoderFollowsTheOpcodeTable : Obligations.DecoderFollowsTheOpcodeTable := by
  constructor
  · intro w i h
    rw [← encode_of_decode h]
    exact encode_mask_row i
  · intro w k hmask hexact
    obtain ⟨i, rfl, hrow⟩ := exists_encode_of_row hmask
    have hwf : i.wellFormed = true := by
      by_cases hsys : ∃ nnn, i = .sys nnn
      · obtain ⟨nnn, rfl⟩ := hsys
        obtain ⟨hcls, hret⟩ := hexact (opField_wordNNN 0x0#4 nnn) (by rw [← hrow]; rfl)
        exact wellFormed_sys_of_encode_ne hcls hret
      · exact Instr.wellFormed_of_ne_sys (not_exists.1 hsys)
    exact ⟨i, decode_encode hwf, hrow⟩

end Sys2Proof
end

section
/-!
The unrecognized words (spec/30_encoding.md R107): each family's own answer, then the list over all families and what a cycle that
fetches one reports.
-/
namespace Sys2Proof

section
variable (w u : Word)

theorem decodeFamily0_ne_unrecognized : decodeFamily0 w ≠ .unrecognized u := by
  unfold decodeFamily0
  split_ifs <;> simp

theorem decodeFamily5_unrecognized_iff : decodeFamily5 w = .unrecognized u ↔ w = u ∧ nField w ≠ 0x0#4 := by
  unfold decodeFamily5
  split_ifs with hn <;> simp [hn]

/-- The nibbles that select no operation of family 8. -/
theorem nibble_unselected_of_ne {n : Nibble} (h0 : n ≠ 0x0#4) (h1 : n ≠ 0x1#4) (h2 : n ≠ 0x2#4) (h3 : n ≠ 0x3#4)
    (h4 : n ≠ 0x4#4) (h5 : n ≠ 0x5#4) (h6 : n ≠ 0x6#4) (h7 : n ≠ 0x7#4) (hE : n ≠ 0xE#4) :
    n ∈ [0x8#4, 0x9#4, 0xA#4, 0xB#4, 0xC#4, 0xD#4, 0xF#4] := by
  revert n
  decide

theorem decodeFamily8_unrecognized_iff :
    decodeFamily8 w = .unrecognized u ↔ w = u ∧ nField w ∈ [0x8#4, 0x9#4, 0xA#4, 0xB#4, 0xC#4, 0xD#4, 0xF#4] := by
  unfold decodeFamily8
  split_ifs with h0 h1 h2 h3 h4 h5 h6 h7 hE
  case neg =>
    rw [Decoded.unrecognized.injEq, and_iff_left (nibble_unselected_of_ne h0 h1 h2 h3 h4 h5 h6 h7 hE)]
  all_goals simp [*]

theorem decodeFamily9_unrecognized_iff : decodeFamily9 w = .unrecognized u ↔ w = u ∧ nField w ≠ 0x0#4 := by
  unfold decodeFamily9
  split_ifs with hn <;> simp [hn]

theorem decodeFamilyE_unrecognized_iff :
    decodeFamilyE w = .unrecognized u ↔ w = u ∧ kkField w ∉ [0x9E#8, 0xA1#8] := by
  unfold decodeFamilyE
  split_ifs <;> simp [*]

theorem decodeFamilyF_unrecognized_iff :
    decodeFamilyF w = .unrecognized u ↔
      w = u ∧ kkField w ∉ [0x07#8, 0x0A#8, 0x15#8, 0x18#8, 0x1E#8, 0x29#8, 0x33#8, 0x55#8, 0x65#8] := by
  unfold decodeFamilyF
  split_ifs <;> simp [*]

/-- The word reported is the word decoded, and only the five families with a selector report one. -/
theorem decode_unrecognized_iff : decode w = .unrecognized u ↔ w = u ∧
    ((opField w = 0x5#4 ∧ nField w ≠ 0x0#4) ∨
    (opField w = 0x8#4 ∧ nField w ∈ [0x8#4, 0x9#4, 0xA#4, 0xB#4, 0xC#4, 0xD#4, 0xF#4]) ∨
    (opField w = 0x9#4 ∧ nField w ≠ 0x0#4) ∨
    (opField w = 0xE#4 ∧ kkField w ∉ [0x9E#8, 0xA1#8]) ∨
    (opField w = 0xF#4 ∧ kkField w ∉ [0x07#8, 0x0A#8, 0x15#8, 0x18#8, 0x1E#8, 0x29#8, 0x33#8, 0x55#8, 0x65#8])) := by
  rcases opField_cases w with h0 | h1 | h2 | h3 | h4 | h5 | h6 | h7 | h8 | h9 | hA | hB | hC | hD | hE | hF
  · simp [decode_op0 h0, h0, decodeFamily0_ne_unrecognized]
  · simp [decode_op1 h1, h1]
  · simp [decode_op2 h2, h2]
  · simp [decode_op3 h3, h3]
  · simp [decode_op4 h4, h4]
  · rw [decode_op5 h5, decodeFamily5_unrecognized_iff]; simp [h5]
  · simp [decode_op6 h6, h6]
  · simp [decode_op7 h7, h7]
  · rw [decode_op8 h8, decodeFamily8_unrecognized_iff]; simp [h8]
  · rw [decode_op9 h9, decodeFamily9_unrecognized_iff]; simp [h9]
  · simp [decode_opA hA, hA]
  · simp [decode_opB hB, hB]
  · simp [decode_opC hC, hC]
  · simp [decode_opD hD, hD]
  · rw [decode_opE hE, decodeFamilyE_unrecognized_iff]; simp [hE]
  · rw [decode_opF hF, decodeFamilyF_unrecognized_iff]; simp [hF]

end

open Sys2Proof.Machine in
/-- Settles O4: the families' lists, the word each rejecting branch reports, and the cycle on a rejected word. -/
theorem unrecognizedWordsAreTheListedOnes : Obligations.UnrecognizedWordsAreTheListedOnes := by
  refine ⟨fun w => ?_, fun w u h => ?_, fun s hf hd => ?_⟩
  · rw [decode_unrecognized_iff, and_iff_right rfl]
  · exact ((decode_unrecognized_iff w u).1 h).1.symm
  · have hstep := step_of_unrecognized hf hd
    exact ⟨hstep, cycle_fault hstep⟩

/-- Settles O5: fixed words, evaluated. -/
theorem sampleWordsDecode : Obligations.SampleWordsDecode := by
  unfold Obligations.SampleWordsDecode
  decide

end Sys2Proof
end

section
/-!
What an instruction does, said once: where it has no error of its own (`ownError`) it completes with `effect`, and where it has one it
ends in that error. Every later statement about `exec` reads the effect of one instruction, or a fact about all effects.
-/
namespace Sys2Proof.Machine

/-- The state an instruction leaves where it has no error of its own, in terms of the updates of `Sys2Proof/Laws/State.lean`;
`exec_eq` ties it to `exec`. -/
def effect (i : Instr) (s : State) : State :=
  match i with
  | .sys _ => s
  | .cls => s.writeDisplay blankDisplay
  | .ret => (s.writePc (s.stackAt s.sp)).pop
  | .jp nnn => s.writePc (addr16 nnn)
  | .call nnn => (s.push s.pc).writePc (addr16 nnn)
  | .seImm x kk => skipIf (s.readV x == kk) s
  | .sneImm x kk => skipIf (s.readV x != kk) s
  | .seReg x y => skipIf (s.readV x == s.readV y) s
  | .ldImm x kk => s.writeV x kk
  | .addImm x kk => s.writeV x (s.readV x + kk)
  | .ldReg x y => s.writeV x (s.readV y)
  | .orReg x y => s.writeV x (s.readV x ||| s.readV y)
  | .andReg x y => s.writeV x (s.readV x &&& s.readV y)
  | .xorReg x y => s.writeV x (s.readV x ^^^ s.readV y)
  | .addReg x y => writeResultAndFlag x (addWithCarry (s.readV x) (s.readV y)) s
  | .sub x y => writeResultAndFlag x (subStrict (s.readV x) (s.readV y)) s
  | .shr x _ => writeResultAndFlag x (shiftRight (s.readV x)) s
  | .subn x y => writeResultAndFlag x (subStrict (s.readV y) (s.readV x)) s
  | .shl x _ => writeResultAndFlag x (shiftLeft (s.readV x)) s
  | .sneReg x y => skipIf (s.readV x != s.readV y) s
  | .ldI nnn => s.writeI (addr16 nnn)
  | .jpV0 nnn => s.writePc (addr16 nnn + byte16 (s.readV 0x0#4))
  | .rnd x kk => s.countEntropy.writeV x (Config.entropy s.entropyCount &&& kk)
  | .drw x y n => drawAndFlag x y n s
  | .skp x => skipIf (s.keyDown ((s.readV x).setWidth 4)) s
  | .sknp x => skipIf (!s.keyDown ((s.readV x).setWidth 4)) s
  | .ldVDt x => s.writeV x s.dt
  | .ldVK x => s.lowestKeyDown.elim (s.writePc (s.pc - 2#16)) fun k => s.writeV x (k.setWidth 8)
  | .ldDtV x => s.writeDt (s.readV x)
  | .ldStV x => s.writeSt (s.readV x)
  | .addIV x => s.writeI (s.i + byte16 (s.readV x))
  | .ldFV x => s.writeI (glyphAddr ((s.readV x).setWidth 4))
  | .ldBV x => s.writeBytes (s.memAddr 0) (decimalDigits (s.readV x))
  | .ldMemV x => s.writeBytes (s.memAddr 0) (s.readRegs 0 (x.toNat + 1))
  | .ldVMem x => s.writeRegs 0 (s.readBytes (s.memAddr 0) (x.toNat + 1))

/-! ## The two checks as an optional error -/

theorem withRange_next (s : State) (last : Nat) (u : State) :
    withRange s last (.next u) =
      (if 0xFFF < s.i.toNat + last then some (Fault.outOfBounds .memory s.i) else none).elim (.next u) .fault := by
  by_cases h : 0xFFF < s.i.toNat + last
  · rw [withRange_out _ h, if_pos h, Option.elim_some]
  · rw [withRange_in _ (Nat.lt_succ_of_le (Nat.le_of_not_lt h)), if_neg h, Option.elim_none]

theorem withIndex_next (src : AccessSource) (b : Byte) (f : Nibble → State) :
    withIndex src b (fun k => .next (f k)) =
      (if 0xF < b.toNat then some (Fault.outOfBounds src (b.setWidth 16)) else none).elim (.next (f (b.setWidth 4))) .fault := by
  by_cases h : 0xF < b.toNat
  · rw [withIndex_out _ h, if_pos h, Option.elim_some]
  · rw [withIndex_in _ (Nat.le_of_not_lt h), if_neg h, Option.elim_none]

/-! ## The instruction as its error or its effect -/

theorem ownError_drw_zero (x y : Nibble) (s : State) : ownError (.drw x y 0x0#4) s = none := by
  simp [ownError]

theorem ownError_drw {n : Nibble} (x y : Nibble) (s : State) (hn : n ≠ 0x0#4) :
    ownError (.drw x y n) s =
      if 0xFFF < s.i.toNat + (n.toNat - 1) then some (.outOfBounds .memory s.i) else none := by
  have hpos : 0 < n.toNat := by bv_omega
  simp only [ownError, hpos, true_and]

theorem exec_eq (i : Instr) (s : State) : exec i s = (ownError i s).elim (.next (effect i s)) .fault := by
  cases i with
  | ret =>
    by_cases h : s.sp = 0x0#4
    · rw [exec_ret_of_empty h, ownError, if_pos h, Option.elim_some]
    · rw [exec_ret_of_nonempty h, ownError, if_neg h, Option.elim_none, effect]
  | call nnn =>
    by_cases h : s.sp = 0xF#4
    · rw [exec_call_of_full h, ownError, if_pos h, Option.elim_some]
    · rw [exec_call_of_room h, ownError, if_neg h, Option.elim_none, effect]
  | drw x y n =>
    by_cases hn : n = 0x0#4
    · subst hn
      rw [ownError_drw_zero]
      rfl
    · rw [ownError_drw x y s hn, effect, ← withRange_next]
      exact if_neg hn
  | ldVK x =>
    simp only [exec, execLdVK, effect, ownError, Option.elim_none]
    cases s.lowestKeyDown <;> rfl
  | skp x => exact withIndex_next .key (s.readV x) fun k => skipIf (s.keyDown k) s
  | sknp x => exact withIndex_next .key (s.readV x) fun k => skipIf (!s.keyDown k) s
  | ldFV x => exact withIndex_next .font (s.readV x) fun d => s.writeI (glyphAddr d)
  | ldBV x | ldMemV x | ldVMem x => exact withRange_next _ _ _
  | _ => rfl

theorem exec_next_iff {i : Instr} {s t : State} : exec i s = .next t ↔ ownError i s = none ∧ effect i s = t := by
  rw [exec_eq]
  cases ownError i s <;> simp

theorem exec_of_ownError_none {i : Instr} {s : State} (h : ownError i s = none) : exec i s = .next (effect i s) :=
  exec_next_iff.2 ⟨h, rfl⟩

theorem exec_fault_iff {i : Instr} {s : State} {e : Fault} : exec i s = .fault e ↔ ownError i s = some e := by
  rw [exec_eq]
  cases ownError i s <;> simp

/-- Settles O10: the guards of the nine instructions that can fail are those of `ownError`, and no other instruction has one. -/
theorem instructionErrorsAreTheListedOnes : Obligations.InstructionErrorsAreTheListedOnes := fun _ _ _ => exec_fault_iff

/-- Settles O11: the next state is the instruction's effect. -/
theorem everyInstructionCompletes : Obligations.EveryInstructionCompletes := fun _ _ h => ⟨_, exec_of_ownError_none h⟩

/-- The two effects of a key wait: back to the instruction, or a key in the register. -/
theorem effect_ldVK_cases (x : Nibble) (s : State) :
    (s.lowestKeyDown = none ∧ effect (.ldVK x) s = s.writePc (s.pc - 2#16)) ∨
      ∃ k : Nibble, effect (.ldVK x) s = s.writeV x (k.setWidth 8) := by
  simp only [effect]
  cases s.lowestKeyDown with
  | none => exact .inl ⟨rfl, rfl⟩
  | some k => exact .inr ⟨k, rfl⟩

/-! ## When the instructions that can fail complete -/

section
variable {x y n : Nibble} {nnn : Addr12} {s : State}

theorem ownError_ret_none_iff : ownError .ret s = none ↔ s.sp ≠ 0x0#4 := by
  simp [ownError]

theorem ownError_call_none_iff : ownError (.call nnn) s = none ↔ s.sp ≠ 0xF#4 := by
  simp [ownError]

theorem ownError_drw_none_iff :
    ownError (.drw x y n) s = none ↔ n = 0x0#4 ∨ s.i.toNat + (n.toNat - 1) ≤ 0xFFF := by
  by_cases hn : n = 0x0#4
  · subst hn
    simp [ownError_drw_zero]
  · simp [ownError_drw x y s hn, hn]

theorem ownError_skp_none_iff : ownError (.skp x) s = none ↔ (s.readV x).toNat ≤ 0xF := by
  simp [ownError]

theorem ownError_sknp_none_iff : ownError (.sknp x) s = none ↔ (s.readV x).toNat ≤ 0xF := by
  simp [ownError]

theorem ownError_ldFV_none_iff : ownError (.ldFV x) s = none ↔ (s.readV x).toNat ≤ 0xF := by
  simp [ownError]

theorem ownError_ldBV_none_iff : ownError (.ldBV x) s = none ↔ s.i.toNat ≤ 0xFFD := by
  simp [ownError]

theorem ownError_ldMemV_none_iff : ownError (.ldMemV x) s = none ↔ s.i.toNat + x.toNat ≤ 0xFFF := by
  simp [ownError]

theorem ownError_ldVMem_none_iff : ownError (.ldVMem x) s = none ↔ s.i.toNat + x.toNat ≤ 0xFFF := by
  simp [ownError]

end

/-! ## The cycle commits or reports -/

theorem exec_next_or_fault (i : Instr) (s : State) : (∃ t, exec i s = .next t) ∨ ∃ e, exec i s = .fault e := by
  cases h : ownError i s with
  | none => exact .inl ⟨_, exec_of_ownError_none h⟩
  | some e => exact .inr ⟨e, exec_fault_iff.2 h⟩

theorem step_next_or_fault (s : State) : (∃ t, step s = .next t) ∨ ∃ e, step s = .fault e := by
  by_cases hf : s.fetchable = true
  · cases hd : decode s.wordAtPc with
    | instr i =>
      rw [step_of_instr hf hd]
      exact exec_next_or_fault i _
    | unrecognized u => exact .inr ⟨_, step_of_unrecognized hf hd⟩
  · exact .inr ⟨_, step_fault_of_not_fetchable (by simpa using hf)⟩

/-- Settles O9: a step completes or is an error, and an error leaves the state whose next cycle is the same one. -/
theorem everyCycleCommitsOrReportsOneError : Obligations.EveryCycleCommitsOrReportsOneError := by
  intro s
  obtain ⟨t, ht⟩ | ⟨e, he⟩ := step_next_or_fault s
  · have hc := cycle_next ht
    exact ⟨.inl ⟨t, ht, hc⟩, fun hne => absurd (by rw [hc]) hne⟩
  · have hc := cycle_fault he
    exact ⟨.inr ⟨e, he, hc⟩, fun _ => by rw [hc, hc]⟩

end Sys2Proof.Machine
end

section
/-!
Who writes what: the parts of the state each instruction may write, as one list that every frame statement reads
(spec/10_state.md R33 to R46, spec/20_memory.md R77).
-/
namespace Sys2Proof.Machine

/-! ## Frames of the remaining updates -/

theorem keepsAllBut_refl (s : State) : KeepsAllBut [] s s := by
  intro p _
  cases p <;> simp [Part.same]

theorem keepsAllBut_writeBytes (s : State) (a : Nat) (bs : List Byte) : KeepsAllBut [.memory] s (s.writeBytes a bs) := by
  intro p hp
  cases p with
  | memory => simp at hp
  | _ => simp [Part.same]

theorem keepsAllBut_writeRegs (s : State) (k : Nat) (bs : List Byte) : KeepsAllBut [.regs] s (s.writeRegs k bs) := by
  intro p hp
  cases p with
  | regs => simp at hp
  | _ => simp [Part.same]

theorem keepsAllBut_drawAndFlag (x y n : Nibble) (s : State) : KeepsAllBut [.display, .regs] s (drawAndFlag x y n s) :=
  (keepsAllBut_writeDisplay s _).trans (keepsAllBut_writeV _ 0xF#4 _)

theorem keepsMemoryOutside_writeBytes (s : State) (a : Nat) (bs : List Byte) :
    KeepsMemoryOutside a bs.length s (s.writeBytes a bs) :=
  fun c hc => s.readByte_writeBytes_other a c bs hc

/-! ## The parts an instruction writes -/

/-- The parts of the state an instruction may write. -/
def writtenParts : Instr → List Part
  | .sys _ => []
  | .cls => [.display]
  | .ret => [.pc, .sp]
  | .call _ => [.pc, .sp, .stack]
  | .jp _ | .jpV0 _ | .seImm _ _ | .sneImm _ _ | .seReg _ _ | .sneReg _ _ | .skp _ | .sknp _ => [.pc]
  | .ldImm _ _ | .addImm _ _ | .ldReg _ _ | .orReg _ _ | .andReg _ _ | .xorReg _ _ => [.regs]
  | .addReg _ _ | .sub _ _ | .shr _ _ | .subn _ _ | .shl _ _ | .ldVDt _ | .ldVMem _ => [.regs]
  | .ldVK _ => [.pc, .regs]
  | .rnd _ _ => [.entropy, .regs]
  | .drw _ _ _ => [.display, .regs]
  | .ldI _ | .addIV _ | .ldFV _ => [.index]
  | .ldDtV _ => [.delay]
  | .ldStV _ => [.sound]
  | .ldBV _ | .ldMemV _ => [.memory]

theorem effect_keeps (i : Instr) (s : State) : KeepsAllBut (writtenParts i) s (effect i s) := by
  cases i with
  | sys => exact keepsAllBut_refl s
  | cls => exact keepsAllBut_writeDisplay s _
  | ret => exact (keepsAllBut_writePc s _).trans (keepsAllBut_pop _)
  | call => exact keepsAllBut_call s _ _
  | jp | jpV0 => exact keepsAllBut_writePc s _
  | seImm | sneImm | seReg | sneReg | skp | sknp => exact keepsAllBut_skipIf _ s
  | ldImm | addImm | ldReg | orReg | andReg | xorReg | ldVDt => exact keepsAllBut_writeV s _ _
  | addReg | sub | shr | subn | shl => exact keepsAllBut_writeResultAndFlag _ _ s
  | ldVMem => exact keepsAllBut_writeRegs s _ _
  | ldVK x =>
    obtain ⟨-, heq⟩ | ⟨k, heq⟩ := effect_ldVK_cases x s
    · rw [heq]
      exact (keepsAllBut_writePc s _).mono (by simp [writtenParts])
    · rw [heq]
      exact (keepsAllBut_writeV s x _).mono (by simp [writtenParts])
  | rnd => exact (keepsAllBut_countEntropy s).trans (keepsAllBut_writeV _ _ _)
  | drw => exact keepsAllBut_drawAndFlag _ _ _ s
  | ldI | addIV | ldFV => exact keepsAllBut_writeI s _
  | ldDtV => exact keepsAllBut_writeDt s _
  | ldStV => exact keepsAllBut_writeSt s _
  | ldBV | ldMemV => exact keepsAllBut_writeBytes s _ _

/-- What an instruction that completes leaves as it was. -/
theorem exec_keeps {i : Instr} {s t : State} (h : exec i s = .next t) : KeepsAllBut (writtenParts i) s t := by
  obtain ⟨-, rfl⟩ := exec_next_iff.1 h
  exact effect_keeps i s

/-! ## The writers of each part -/

section
variable {i : Instr}

theorem display_mem_writtenParts : Part.display ∈ writtenParts i ↔ i = .cls ∨ ∃ x y n, i = .drw x y n := by
  cases i <;> simp [writtenParts]

theorem sp_mem_writtenParts : Part.sp ∈ writtenParts i ↔ i = .ret ∨ ∃ nnn, i = .call nnn := by
  cases i <;> simp [writtenParts]

theorem stack_mem_writtenParts : Part.stack ∈ writtenParts i ↔ ∃ nnn, i = .call nnn := by
  cases i <;> simp [writtenParts]

theorem index_mem_writtenParts :
    Part.index ∈ writtenParts i ↔ (∃ nnn, i = .ldI nnn) ∨ (∃ x, i = .addIV x) ∨ ∃ x, i = .ldFV x := by
  cases i <;> simp [writtenParts]

theorem delay_mem_writtenParts : Part.delay ∈ writtenParts i ↔ ∃ x, i = .ldDtV x := by
  cases i <;> simp [writtenParts]

theorem sound_mem_writtenParts : Part.sound ∈ writtenParts i ↔ ∃ x, i = .ldStV x := by
  cases i <;> simp [writtenParts]

theorem entropy_mem_writtenParts : Part.entropy ∈ writtenParts i ↔ ∃ x kk, i = .rnd x kk := by
  cases i <;> simp [writtenParts]

theorem keypad_notMem_writtenParts : Part.keypad ∉ writtenParts i := by
  cases i <;> simp [writtenParts]

end

/-! ## The statements -/

/-- Settles O45: CLS and DRW are the two that write the display. -/
theorem onlyClsAndDrwChangeTheDisplay : Obligations.OnlyClsAndDrwChangeTheDisplay := by
  intro i s t h hcls hdrw
  refine exec_keeps h .display fun hmem => ?_
  obtain rfl | ⟨x, y, n, rfl⟩ := display_mem_writtenParts.1 hmem
  · exact hcls rfl
  · exact hdrw x y n rfl

/-- A push of CALL writes the entry above the top; no other instruction writes the stack. -/
theorem effect_stackAt_other {i : Instr} {s : State} {j : Nibble} (hj : j ≠ s.sp + 1#4) :
    (effect i s).stackAt j = s.stackAt j := by
  by_cases hcall : ∃ nnn, i = .call nnn
  · obtain ⟨nnn, rfl⟩ := hcall
    exact s.stackAt_push_other s.pc hj
  · exact effect_keeps i s .stack (hcall ∘ stack_mem_writtenParts.1) j

/-- A CALL that completes found room on the stack, so the entry it writes is not `stack[0]`. -/
theorem effect_stackAt_zero {i : Instr} {s : State} (h : ownError i s = none) :
    (effect i s).stackAt 0x0#4 = s.stackAt 0x0#4 := by
  by_cases hcall : ∃ nnn, i = .call nnn
  · obtain ⟨nnn, rfl⟩ := hcall
    have hroom := ownError_call_none_iff.1 h
    exact effect_stackAt_other (by bv_omega)
  · exact effect_keeps i s .stack (hcall ∘ stack_mem_writtenParts.1) 0x0#4

/-- Settles O46: the frame gives `sp` and the stack where CALL and RET are excluded; the push of CALL gives the rest. -/
theorem onlyCallAndRetMoveTheStack : Obligations.OnlyCallAndRetMoveTheStack := by
  intro i s t h
  have hkeeps := exec_keeps h
  obtain ⟨hnone, rfl⟩ := exec_next_iff.1 h
  refine ⟨fun hret hcall => ?_, fun hcall => ?_, fun j hj => effect_stackAt_other hj, effect_stackAt_zero hnone⟩
  · exact hkeeps .sp fun hmem => (sp_mem_writtenParts.1 hmem).elim hret (not_exists.2 hcall)
  · exact hkeeps .stack (not_exists.2 hcall ∘ stack_mem_writtenParts.1)

/-- Settles O47: the frame gives each special register where its writers are excluded. -/
theorem specialRegistersChangeOnlyByTheirInstructions : Obligations.SpecialRegistersChangeOnlyByTheirInstructions := by
  intro i s t h
  have hkeeps := exec_keeps h
  refine ⟨fun hldI haddIV hldFV => hkeeps .index fun hmem => ?_, fun hldDt => ?_, fun hldSt => ?_⟩
  · obtain ⟨nnn, rfl⟩ | ⟨x, rfl⟩ | ⟨x, rfl⟩ := index_mem_writtenParts.1 hmem
    · exact hldI nnn rfl
    · exact haddIV x rfl
    · exact hldFV x rfl
  · exact hkeeps .delay (not_exists.2 hldDt ∘ delay_mem_writtenParts.1)
  · exact hkeeps .sound (not_exists.2 hldSt ∘ sound_mem_writtenParts.1)

theorem skipIf_mem (cond : Bool) (s : State) : (skipIf cond s).mem = s.mem := by
  cases cond <;> rfl

/-- Memory itself, and not only each byte of it, is kept by all but the two stores. -/
theorem effect_mem {i : Instr} {s : State} (hldB : ∀ x, i ≠ .ldBV x) (hldMem : ∀ x, i ≠ .ldMemV x) :
    (effect i s).mem = s.mem := by
  cases i with
  | ldBV x => exact absurd rfl (hldB x)
  | ldMemV x => exact absurd rfl (hldMem x)
  | ldVMem x => exact s.writeRegs_mem 0 _
  | ldVK x =>
    obtain ⟨-, heq⟩ | ⟨k, heq⟩ := effect_ldVK_cases x s <;> rw [heq]
    · exact s.writePc_mem _
    · exact s.writeV_mem x _
  | seImm | sneImm | seReg | sneReg | skp | sknp =>
    exact skipIf_mem _ s
  | _ => rfl

/-- Settles O48: the two stores write three bytes and `x + 1` bytes from `I`. -/
theorem memoryChangesOnlyInTheStoredRange : Obligations.MemoryChangesOnlyInTheStoredRange := by
  intro i s t h
  obtain ⟨-, rfl⟩ := exec_next_iff.1 h
  refine ⟨effect_mem, ?_, ?_⟩
  · rintro x rfl
    exact keepsMemoryOutside_writeBytes s (s.memAddr 0) (decimalDigits (s.readV x))
  · rintro x rfl
    have hlen : (s.readRegs 0 (x.toNat + 1)).length = x.toNat + 1 := s.length_readRegs _ _
    rw [← hlen]
    exact keepsMemoryOutside_writeBytes s _ _

/-- Settles O49: no list of written parts has the keypad, and only that of RND has the count. -/
theorem keypadIsReadOnlyAndEntropyIsDrawnByRnd : Obligations.KeypadIsReadOnlyAndEntropyIsDrawnByRnd := by
  intro i s t h
  have hkeeps := exec_keeps h
  refine ⟨hkeeps .keypad keypad_notMem_writtenParts, fun hrnd => hkeeps .entropy fun hmem => ?_, ?_⟩
  · obtain ⟨x, kk, rfl⟩ := entropy_mem_writtenParts.1 hmem
    exact hrnd x kk rfl
  · rintro x kk rfl
    obtain ⟨-, rfl⟩ := exec_next_iff.1 h
    rfl

theorem KeepsRegsBut.mem_of_ne {xs : List Nibble} {s t : State} {z : Nibble} (h : KeepsRegsBut xs s t)
    (hz : t.readV z ≠ s.readV z) : z ∈ xs :=
  not_imp_comm.1 (h z) hz

/-- Registers above the last one of a list written from `V[0]` are kept. -/
theorem State.readV_writeRegs_above {s : State} {bs : List Byte} {x y : Nibble} (hl : bs.length = x.toNat + 1)
    (hy : x.toNat < y.toNat) : (s.writeRegs 0 bs).readV y = s.readV y :=
  State.readV_writeRegs_other bs s 0 (by omega) (.inr (by omega))

/-- Settles O50: an instruction whose parts leave out the registers changes none; the others write the registers named. -/
theorem registersChangeOnlyAsDestinations : Obligations.RegistersChangeOnlyAsDestinations := by
  intro i s t h z hz
  have hregs : Part.regs ∈ writtenParts i := by
    by_contra hmem
    exact hz (exec_keeps h .regs hmem z)
  obtain ⟨-, rfl⟩ := exec_next_iff.1 h
  cases i with
  | ldImm | addImm | ldReg | orReg | andReg | xorReg | ldVDt =>
    exact List.mem_singleton.1 ((keepsRegsBut_writeV s _ _).mem_of_ne hz)
  | rnd x kk => exact List.mem_singleton.1 ((keepsRegsBut_writeV s.countEntropy x _).mem_of_ne hz)
  | addReg | sub | shr | subn | shl => simpa using (keepsRegsBut_writeResultAndFlag _ _ s).mem_of_ne hz
  | drw => exact List.mem_singleton.1 ((keepsRegsBut_writeV (s.writeDisplay _) 0xF#4 _).mem_of_ne hz)
  | ldVK x =>
    obtain ⟨-, heq⟩ | ⟨k, heq⟩ := effect_ldVK_cases x s <;> rw [heq] at hz
    · exact absurd (s.readV_writePc _ z) hz
    · exact List.mem_singleton.1 ((keepsRegsBut_writeV s x _).mem_of_ne hz)
  | ldVMem x =>
    refine Nat.le_of_not_lt fun hxz => hz (State.readV_writeRegs_above ?_ hxz)
    exact Memory.length_readBytes _ _ _
  | _ => simp [writtenParts] at hregs

/-- Settles O51: the lists of written parts of the control transfers. -/
theorem controlTransfersWriteOnlyPcAndStack : Obligations.ControlTransfersWriteOnlyPcAndStack := by
  intro i s t h
  have hkeeps := exec_keeps h
  refine ⟨?_, ?_, ?_⟩
  · rintro (⟨nnn, rfl | rfl | rfl⟩ | ⟨x, kk, rfl | rfl⟩ | ⟨x, y, rfl | rfl⟩)
    · exact hkeeps.mono (List.nil_subset _)
    all_goals exact hkeeps
  · rintro rfl
    exact hkeeps
  · rintro ⟨nnn, rfl⟩
    exact hkeeps

/-! ## `pc` after a cycle -/

theorem pc_skipIf_advancePc (cond : Bool) (s : State) :
    (skipIf cond s.advancePc).pc = s.pc + 2#16 ∨ (skipIf cond s.advancePc).pc = s.pc + 4#16 := by
  cases cond with
  | false => exact .inl rfl
  | true => exact .inr (BitVec.add_assoc s.pc 2#16 2#16)

/-- Settles O52: an instruction that does not write `pc` leaves it advanced; the others are the transfers, the skips and the key
wait. -/
theorem pcAfterACompletedCycle : Obligations.PcAfterACompletedCycle := by
  intro s t h
  obtain ⟨i, -, hd, hexec⟩ := step_next h
  have hpc : Part.pc ∉ writtenParts i → t.pc = s.pc + 2#16 := fun hmem => exec_keeps hexec .pc hmem
  obtain ⟨-, rfl⟩ := exec_next_iff.1 hexec
  refine ⟨i, hd, ?_⟩
  cases i with
  | jp nnn | call nnn => exact toNat_addr16 nnn
  | jpV0 nnn => exact toNat_addr16_add_byte16 nnn _
  | ret => rfl
  | seImm | sneImm | seReg | sneReg | skp | sknp => exact pc_skipIf_advancePc _ s
  | ldVK x =>
    obtain ⟨hk, heq⟩ | ⟨k, heq⟩ := effect_ldVK_cases x s.advancePc <;> rw [heq]
    · exact .inr ⟨BitVec.add_sub_cancel s.pc 2#16, s.advancePc.lowestKeyDown_none.1 hk⟩
    · exact .inl rfl
  | _ => exact hpc (by simp [writtenParts])

end Sys2Proof.Machine
end

section
/-!
The invariant (spec/10_state.md R39, R42): what each of its four clauses asks of an instruction's effect, then the step, the host's
operations and any sequence of them.
-/
namespace Sys2Proof.Machine

/-! ## One instruction -/

/-- The bytes LD B stores lie in memory. -/
theorem length_decimalDigits_fits {s : State} (b : Byte) (h : s.i.toNat ≤ 0xFFD) :
    s.memAddr 0 + (decimalDigits b).length ≤ Config.memorySize := by
  simp only [State.memAddr, decimalDigits, List.length_cons, List.length_nil, Config.memorySize]
  omega

/-- The bytes LD [I] stores lie in memory. -/
theorem length_readRegs_fits {x : Nibble} {s : State} (h : s.i.toNat + x.toNat ≤ 0xFFF) :
    s.memAddr 0 + (s.readRegs 0 (x.toNat + 1)).length ≤ Config.memorySize := by
  simp only [State.memAddr, State.length_readRegs, Config.memorySize]
  omega

section
variable {i : Instr} {s : State}

theorem effect_mem_wf (hnone : ownError i s = none) (hm : s.mem.wf = true) : (effect i s).mem.wf = true := by
  by_cases hldB : ∃ x, i = .ldBV x
  · obtain ⟨x, rfl⟩ := hldB
    exact Memory.wf_writeBytes (length_decimalDigits_fits _ (ownError_ldBV_none_iff.1 hnone)) hm
  by_cases hldMem : ∃ x, i = .ldMemV x
  · obtain ⟨x, rfl⟩ := hldMem
    exact Memory.wf_writeBytes (length_readRegs_fits (ownError_ldMemV_none_iff.1 hnone)) hm
  rwa [effect_mem (not_exists.1 hldB) (not_exists.1 hldMem)]

/-- What a CALL pushes is the advanced `pc`, at most 0x1000. -/
theorem effect_stackAt_le (hpc : s.pc.toNat ≤ 0x1000) (hstack : ∀ j, (s.stackAt j).toNat ≤ 0x1000) (j : Nibble) :
    ((effect i s).stackAt j).toNat ≤ 0x1000 := by
  by_cases hcall : ∃ nnn, i = .call nnn
  · obtain ⟨nnn, rfl⟩ := hcall
    rw [effect, State.stackAt_writePc, State.stackAt_push]
    split
    · exact hpc
    · exact hstack j
  · rw [effect_keeps i s .stack (hcall ∘ stack_mem_writtenParts.1) j]
    exact hstack j

/-- The largest target is that of JP V0; a key wait goes back to an address that was fetched, so its subtraction does not wrap. -/
theorem effect_pc_le (hlo : 2 ≤ s.pc.toNat) (hpc : s.pc.toNat ≤ 0x1000) (hstack : ∀ j, (s.stackAt j).toNat ≤ 0x1000) :
    (effect i s).pc.toNat ≤ 0x10FE := by
  have hkeep : Part.pc ∉ writtenParts i → (effect i s).pc.toNat ≤ 0x10FE := fun hmem => by
    rw [effect_keeps i s .pc hmem]
    omega
  cases i with
  | jp nnn | call nnn =>
    have htarget : (addr16 nnn).toNat ≤ 0x10FE := by
      rw [toNat_addr16]
      omega
    exact htarget
  | jpV0 nnn =>
    have htarget : (addr16 nnn + byte16 (s.readV 0x0#4)).toNat ≤ 0x10FE := by
      rw [toNat_addr16_add_byte16]
      omega
    exact htarget
  | ret => exact (hstack s.sp).trans (by decide)
  | seImm | sneImm | seReg | sneReg | skp | sknp =>
    simp only [effect, skipIf_eq, State.writePc_pc]
    split
    · bv_omega
    · omega
  | ldVK x =>
    obtain ⟨-, heq⟩ | ⟨k, heq⟩ := effect_ldVK_cases x s <;> rw [heq]
    · rw [State.writePc_pc]
      bv_omega
    · exact hpc.trans (by decide)
  | _ => exact hkeep (by simp [writtenParts])

end

/-! ## The step -/

theorem toNat_pc_advancePc {s : State} (hf : s.fetchable = true) : s.advancePc.pc.toNat = s.pc.toNat + 2 := by
  have hpc := s.fetchable_iff.1 hf
  rw [State.advancePc_eq, State.writePc_pc]
  bv_omega

theorem inv_step {s t : State} (h : Inv s) (hstep : step s = .next t) : Inv t := by
  obtain ⟨hmem, hzero, -, hstack⟩ := h
  obtain ⟨i, hf, -, hexec⟩ := step_next hstep
  obtain ⟨hnone, rfl⟩ := exec_next_iff.1 hexec
  have hpc := s.fetchable_iff.1 hf
  have hadv := toNat_pc_advancePc hf
  exact ⟨effect_mem_wf hnone hmem, (effect_stackAt_zero hnone).trans hzero, effect_pc_le (by omega) (by omega) hstack,
    effect_stackAt_le (by omega) hstack⟩

/-- Settles O53: the clauses of the invariant, each kept by every effect on the advanced state of a fetchable `pc`. -/
theorem stepKeepsTheInvariant : Obligations.StepKeepsTheInvariant := fun _ _ => inv_step

theorem inv_reset : Inv State.reset := by
  refine ⟨Memory.wf_reset, State.stackAt_reset _, by decide, fun j => ?_⟩
  rw [State.stackAt_reset]
  decide

/-- Settles O54: the reset values. -/
theorem resetMeetsTheInvariant : Obligations.ResetMeetsTheInvariant :=
  ⟨inv_reset, State.reset_pc, by decide⟩

/-! ## Sessions -/

/-- An error leaves the state as it was. -/
theorem inv_cycle {s : State} (h : Inv s) : Inv (cycle s).1 := by
  obtain ⟨t, ht⟩ | ⟨e, he⟩ := step_next_or_fault s
  · rw [cycle_next ht]
    exact inv_step h ht
  · rwa [cycle_fault he]

theorem State.loadBytes_eq_some {s t : State} {a : Nat} {bs : List Byte} :
    s.loadBytes a bs = some t ↔ a + bs.length ≤ 4096 ∧ s.writeBytes a bs = t := by
  rw [State.loadBytes, Option.ite_none_right_eq_some, Option.some.injEq]
  rfl

theorem inv_loadBytes {s t : State} {a : Nat} {bs : List Byte} (h : Inv s) (hload : s.loadBytes a bs = some t) : Inv t := by
  obtain ⟨hfits, rfl⟩ := State.loadBytes_eq_some.1 hload
  obtain ⟨hmem, hrest⟩ := h
  exact ⟨Memory.wf_writeBytes hfits hmem, hrest⟩

theorem Session.apply_loadBytes_cycled {x : Session} (h : x.cycled = true) (a : Nat) (bs : List Byte) :
    x.apply (.loadBytes a bs) = .refused .loadAfterFirstCycle :=
  if_pos h

theorem Session.apply_loadBytes_out {x : Session} {a : Nat} {bs : List Byte} (h : x.cycled = false)
    (hload : x.machine.loadBytes a bs = none) : x.apply (.loadBytes a bs) = .refused .loadOutOfRange := by
  simp only [Session.apply, h, hload, Bool.false_eq_true, if_false]

theorem Session.apply_loadBytes_in {x : Session} {a : Nat} {bs : List Byte} {t : State} (h : x.cycled = false)
    (hload : x.machine.loadBytes a bs = some t) :
    x.apply (.loadBytes a bs) = .next ({ x with machine := t }, .nothing) := by
  simp only [Session.apply, h, hload, Bool.false_eq_true, if_false]

theorem Session.apply_loadBytes_next {x y : Session} {a : Nat} {bs : List Byte} {r : Response}
    (h : x.apply (.loadBytes a bs) = .next (y, r)) : x.machine.loadBytes a bs = some y.machine := by
  cases hc : x.cycled with
  | true => simp [Session.apply_loadBytes_cycled hc] at h
  | false =>
    cases hload : x.machine.loadBytes a bs with
    | none => simp [Session.apply_loadBytes_out hc hload] at h
    | some t =>
      rw [Session.apply_loadBytes_in hc hload] at h
      cases h
      rfl

/-- One host operation: a reset gives the reset state, a load stores inside memory, a cycle steps or leaves the state, and the
others write no part the invariant speaks of. -/
theorem inv_apply {x y : Session} {op : HostOp} {r : Response} (h : Inv x.machine) (happly : x.apply op = .next (y, r)) :
    Inv y.machine := by
  cases op with
  | loadBytes a bs => exact inv_loadBytes h (Session.apply_loadBytes_next happly)
  | reset => cases happly; exact inv_reset
  | step => cases happly; exact inv_cycle h
  | setKey | tickDelay | tickSound | readDisplay => cases happly; exact h

/-- A sequence that is not refused applied its first operation and went on with the rest. -/
theorem Session.run_cons_next {x z : Session} {op : HostOp} {ops : List HostOp} {rs : List Response}
    (h : x.run (op :: ops) = .next (z, rs)) : ∃ y r rs', x.apply op = .next (y, r) ∧ y.run ops = .next (z, rs') := by
  rw [Session.run] at h
  split at h
  · cases h
  · cases h
  · next y r happly =>
    split at h
    · cases h
    · cases h
    · next rs' hrun =>
      cases h
      exact ⟨y, r, _, happly, hrun⟩

theorem inv_run {ops : List HostOp} {x z : Session} {rs : List Response} (h : Inv x.machine)
    (hrun : x.run ops = .next (z, rs)) : Inv z.machine := by
  induction ops generalizing x rs with
  | nil =>
    cases hrun
    exact h
  | cons op ops ih =>
    obtain ⟨y, r, rs', happly, hrest⟩ := Session.run_cons_next hrun
    exact ih (inv_apply h happly) hrest

/-- Settles O56, by induction on the operations. -/
theorem sessionsKeepTheInvariant : Obligations.SessionsKeepTheInvariant := fun _ _ _ _ => inv_run

end Sys2Proof.Machine
end

section
/-!
The hidden stack entries (spec/10_state.md R49). Two states that a program cannot tell apart differ in their stacks alone, so the one
is the other with its stack replaced; a replaced stack changes no guard, and only RET and CALL read or write entries, those up to the
top and the one above it.
-/
namespace Sys2Proof.Machine

/-- `s` with another stack. -/
def State.replaceStack (s : State) (k : Vector Word 16) : State := { s with stack := k }

theorem keepsAllBut_replaceStack (s : State) (k : Vector Word 16) : KeepsAllBut [.stack] s (s.replaceStack k) := by
  intro p hp
  cases p with
  | stack => simp at hp
  | regs | keypad | display | memory => exact fun _ => rfl
  | index | pc | sp | delay | sound | entropy => rfl

/-! ## Unobservably equal states differ in their stacks -/

theorem vector16_ext {α : Type} {a b : Vector α 16} (h : ∀ y : Nibble, a.get y.toFin = b.get y.toFin) : a = b :=
  Vector.ext fun j hj => h (BitVec.ofFin ⟨j, hj⟩)

theorem ObsEq.eq_replaceStack {s t : State} (h : ObsEq s t) : t = s.replaceStack t.stack := by
  obtain ⟨hkeeps, hmem, -⟩ := h
  have hv : t.v = s.v := vector16_ext (hkeeps .regs (by decide))
  have hkeypad : t.keypad = s.keypad := vector16_ext (hkeeps .keypad (by decide))
  have hdisplay : t.display = s.display := Vector.ext fun b hb => hkeeps .display (by decide) ⟨b, hb⟩
  have hi : t.i = s.i := hkeeps .index (by decide)
  have hpc : t.pc = s.pc := hkeeps .pc (by decide)
  have hsp : t.sp = s.sp := hkeeps .sp (by decide)
  have hdt : t.dt = s.dt := hkeeps .delay (by decide)
  have hst : t.st = s.st := hkeeps .sound (by decide)
  have hentropy : t.entropyCount = s.entropyCount := hkeeps .entropy (by decide)
  rw [State.replaceStack, ← hmem, ← hv, ← hi, ← hpc, ← hsp, ← hdt, ← hst, ← hkeypad, ← hdisplay, ← hentropy]

theorem obsEq_replaceStack {s : State} {k : Vector Word 16}
    (h : ∀ j : Nibble, 0 < j.toNat → j.toNat ≤ s.sp.toNat → (s.replaceStack k).stackAt j = s.stackAt j) :
    ObsEq s (s.replaceStack k) :=
  ⟨(keepsAllBut_replaceStack s k).mono (by decide), rfl, h⟩

/-! ## What a replaced stack changes -/

@[simp] theorem ownError_replaceStack (i : Instr) (s : State) (k : Vector Word 16) :
    ownError i (s.replaceStack k) = ownError i s := by
  cases i <;> rfl

theorem State.readRegs_replaceStack (s : State) (k : Vector Word 16) :
    ∀ (n r : Nat), (s.replaceStack k).readRegs r n = s.readRegs r n
  | 0, _ => rfl
  | n + 1, r => congrArg (s.readV (BitVec.ofNat 4 r) :: ·) (State.readRegs_replaceStack s k n (r + 1))

theorem State.writeRegs_replaceStack (k : Vector Word 16) :
    ∀ (bs : List Byte) (s : State) (r : Nat), (s.replaceStack k).writeRegs r bs = (s.writeRegs r bs).replaceStack k
  | [], _, _ => rfl
  | b :: bs, s, r => State.writeRegs_replaceStack k bs (s.writeV (BitVec.ofNat 4 r) b) (r + 1)

theorem skipIf_replaceStack (cond : Bool) (s : State) (k : Vector Word 16) :
    skipIf cond (s.replaceStack k) = (skipIf cond s).replaceStack k := by
  cases cond <;> rfl

theorem effect_replaceStack {i : Instr} (s : State) (k : Vector Word 16) (hret : i ≠ .ret) (hcall : ∀ nnn, i ≠ .call nnn) :
    effect i (s.replaceStack k) = (effect i s).replaceStack k := by
  cases i with
  | ret => exact absurd rfl hret
  | call nnn => exact absurd rfl (hcall nnn)
  | seImm | sneImm | seReg | sneReg | skp | sknp => exact skipIf_replaceStack _ s k
  | ldVK x =>
    have hkey : (s.replaceStack k).lowestKeyDown = s.lowestKeyDown := rfl
    simp only [effect, hkey]
    cases s.lowestKeyDown <;> rfl
  | ldMemV x =>
    simp only [effect, State.readRegs_replaceStack]
    rfl
  | ldVMem x => exact State.writeRegs_replaceStack k _ s 0
  | _ => rfl

/-- RET reads the top, which is visible, and CALL writes the entry that becomes visible, the same in both. -/
theorem effect_obsEq {i : Instr} {s : State} {k : Vector Word 16} (hnone : ownError i s = none)
    (hvis : ∀ j : Nibble, 0 < j.toNat → j.toNat ≤ s.sp.toNat → (s.replaceStack k).stackAt j = s.stackAt j) :
    ObsEq (effect i s) (effect i (s.replaceStack k)) := by
  by_cases hret : i = .ret
  · subst hret
    have hsp := ownError_ret_none_iff.1 hnone
    have htop : (s.replaceStack k).stackAt s.sp = s.stackAt s.sp := hvis s.sp (by bv_omega) le_rfl
    have heq : effect .ret (s.replaceStack k) = (effect .ret s).replaceStack k :=
      congrArg (fun w => ((s.writePc w).pop).replaceStack k) htop
    rw [heq]
    refine obsEq_replaceStack fun j h0 hj => hvis j h0 ?_
    have hpop : (effect .ret s).sp = s.sp - 1#4 := rfl
    bv_omega
  by_cases hcall : ∃ nnn, i = .call nnn
  · obtain ⟨nnn, rfl⟩ := hcall
    have hsp := ownError_call_none_iff.1 hnone
    have heq : effect (.call nnn) (s.replaceStack k) =
        (effect (.call nnn) s).replaceStack (effect (.call nnn) (s.replaceStack k)).stack := rfl
    rw [heq]
    refine obsEq_replaceStack fun j h0 hj => ?_
    rw [← heq, effect, effect, State.stackAt_writePc, State.stackAt_writePc, State.stackAt_push, State.stackAt_push]
    by_cases hnew : j = s.sp + 1#4
    · exact (if_pos hnew).trans (if_pos hnew).symm
    · have hpush : (effect (.call nnn) s).sp = s.sp + 1#4 := rfl
      have hold : j.toNat ≤ s.sp.toNat := by bv_omega
      exact (if_neg hnew).trans ((hvis j h0 hold).trans (if_neg hnew).symm)
  · have hcall := not_exists.1 hcall
    have hsp : (effect i s).sp = s.sp := effect_keeps i s .sp fun h =>
      (sp_mem_writtenParts.1 h).elim hret (not_exists.2 hcall)
    have hstack : Part.same .stack s (effect i s) := effect_keeps i s .stack (not_exists.2 hcall ∘ stack_mem_writtenParts.1)
    rw [effect_replaceStack s k hret hcall]
    refine obsEq_replaceStack fun j h0 hj => ?_
    rw [hstack j]
    exact hvis j h0 (hsp ▸ hj)

/-- Settles O57: the fetch and the guards do not see the stack entries, and the effects keep the difference hidden. -/
theorem hiddenStackEntriesAreUnobservable : Obligations.HiddenStackEntriesAreUnobservable := by
  intro s t h
  obtain ⟨k, rfl⟩ : ∃ k, t = s.replaceStack k := ⟨_, h.eq_replaceStack⟩
  obtain ⟨-, -, hvis⟩ := h
  cases hf : s.fetchable with
  | false =>
    have hfk : (s.replaceStack k).fetchable = false := hf
    rw [step_fault_of_not_fetchable hf, step_fault_of_not_fetchable hfk]
    rfl
  | true =>
    have hfk : (s.replaceStack k).fetchable = true := hf
    have hword : (s.replaceStack k).wordAtPc = s.wordAtPc := rfl
    cases hd : decode s.wordAtPc with
    | unrecognized u =>
      rw [step_of_unrecognized hf hd, step_of_unrecognized hfk (hword ▸ hd)]
      rfl
    | instr i =>
      have hadv : (s.replaceStack k).advancePc = s.advancePc.replaceStack k := rfl
      rw [step_of_instr hf hd, step_of_instr hfk (hword ▸ hd), hadv, exec_eq, exec_eq, ownError_replaceStack]
      cases hown : ownError i s.advancePc with
      | some e => rfl
      | none => exact effect_obsEq hown hvis

end Sys2Proof.Machine
end

section
/-!
Calls and returns in a row (spec/41_control.md R157, R161, R173): RET after CALL, nested calls, and targets the next fetch cannot
reach.
-/
namespace Sys2Proof.Machine

/-- Settles O16: the CALL pushed the advanced `pc` on the new top, which is what the RET pops. -/
theorem retAfterCallReturns : Obligations.RetAfterCallReturns := by
  intro nnn s t p h
  obtain ⟨hnone, rfl⟩ := exec_next_iff.1 h
  have hroom := ownError_call_none_iff.1 hnone
  have hsp : ((effect (.call nnn) s).writePc p).sp ≠ 0x0#4 := by
    have hpush : ((effect (.call nnn) s).writePc p).sp = s.sp + 1#4 := rfl
    bv_omega
  have hpc : (effect .ret ((effect (.call nnn) s).writePc p)).pc = s.pc := s.stackAt_push_top s.pc
  have hback : (effect .ret ((effect (.call nnn) s).writePc p)).sp = s.sp := BitVec.add_sub_cancel s.sp 1#4
  have hkeeps := ((effect_keeps (.call nnn) s).trans (keepsAllBut_writePc _ p)).trans (effect_keeps .ret _)
  refine ⟨_, exec_of_ownError_none (ownError_ret_none_iff.2 hsp), hpc, hback, fun q hq => ?_⟩
  cases q with
  | stack => simp at hq
  | pc => exact hpc
  | sp => exact hback
  | _ => exact hkeeps _ (by simp [writtenParts])

/-! ## Nested calls -/

theorem nestedCalls_succ_of_room {nnn : Addr12} {s : State} (h : s.sp ≠ 0xF#4) (n : Nat) :
    nestedCalls nnn (n + 1) s = nestedCalls nnn n ((s.push s.pc).writePc (addr16 nnn)) := by
  simp only [nestedCalls, exec_call_of_room h]

theorem nestedCalls_of_room (nnn : Addr12) : ∀ (n : Nat) (s : State), s.sp.toNat + n ≤ 15 →
    ∃ t, nestedCalls nnn n s = .next t ∧ t.sp.toNat = s.sp.toNat + n ∧ t.stackAt 0x0#4 = s.stackAt 0x0#4
  | 0, s, _ => ⟨s, rfl, rfl, rfl⟩
  | n + 1, s, h => by
    have hroom : s.sp ≠ 0xF#4 := by bv_omega
    have hpush : ((s.push s.pc).writePc (addr16 nnn)).sp.toNat = s.sp.toNat + 1 := by
      rw [State.writePc_sp, State.push_sp]
      bv_omega
    obtain ⟨t, ht, hsp, hzero⟩ := nestedCalls_of_room nnn n ((s.push s.pc).writePc (addr16 nnn)) (by omega)
    refine ⟨t, (nestedCalls_succ_of_room hroom n).trans ht, by omega, hzero.trans ?_⟩
    exact s.stackAt_push_other s.pc (by bv_omega)

theorem nestedCalls_overflow (nnn : Addr12) : ∀ (n : Nat) (s : State), s.sp.toNat + n = 15 →
    nestedCalls nnn (n + 1) s = .fault (.stackOverflow 0xF#4)
  | 0, s, h => by
    have hfull : s.sp = 0xF#4 := by bv_omega
    simp only [nestedCalls, exec_call_of_full hfull]
  | n + 1, s, h => by
    have hroom : s.sp ≠ 0xF#4 := by bv_omega
    rw [nestedCalls_succ_of_room hroom]
    refine nestedCalls_overflow nnn n _ ?_
    rw [State.writePc_sp, State.push_sp]
    bv_omega

/-- Settles O17, by induction on the calls from any `sp`: the empty stack has room for 15. -/
theorem fifteenNestedCallsThenOverflow : Obligations.FifteenNestedCallsThenOverflow := by
  intro nnn s hsp
  have hsp : s.sp.toNat = 0 := congrArg BitVec.toNat hsp
  refine ⟨fun n hn => ?_, nestedCalls_overflow nnn 15 s (by omega)⟩
  obtain ⟨t, ht, htsp, hzero⟩ := nestedCalls_of_room nnn n s (by omega)
  exact ⟨t, ht, by omega, hzero⟩

/-! ## Targets that cannot be fetched -/

theorem step_writePc_of_gt (s : State) {w : Word} (h : 0xFFE < w.toNat) :
    step (s.writePc w) = .fault (.outOfBounds .fetch w) :=
  step_fault_of_not_fetchable ((s.writePc w).not_fetchable_iff.2 h)

/-- Settles O21: each transfer leaves its target in `pc` unchecked, and the fetch of the next cycle checks it. -/
theorem unfetchableTargetsAreReportedByTheNextFetch : Obligations.UnfetchableTargetsAreReportedByTheNextFetch := by
  intro s
  refine ⟨?_, fun hsp => ?_, fun nnn hsum => ?_, fun hsp htop => ?_, fun hf hzero => ?_⟩
  · exact ⟨_, exec_jp 0xFFF#12 s, step_writePc_of_gt s (by decide)⟩
  · exact ⟨_, exec_call_of_room hsp, step_writePc_of_gt _ (by decide)⟩
  · have htarget := toNat_addr16_add_byte16 nnn (s.readV 0x0#4)
    exact ⟨_, exec_jpV0 nnn s, _, htarget, step_writePc_of_gt s (by omega)⟩
  · exact ⟨_, exec_ret_of_nonempty hsp, step_writePc_of_gt s.pop htop⟩
  · have hd : decode s.wordAtPc = .instr (.sys 0x000#12) := by
      rw [hzero]
      decide
    have hadv := toNat_pc_advancePc hf
    refine ⟨s.advancePc, step_of_instr hf hd, rfl, keepsAllBut_writePc s _, fun hpc => ?_⟩
    exact step_writePc_of_gt s (by rw [State.advancePc_eq, State.writePc_pc] at hadv; omega)

end Sys2Proof.Machine
end

section
/-!
DRW (spec/43_display.md R254 to R257): the pixels its loops cover, as the statements say it (`SpriteCovers`), are the pixels the laws
of the loops in `Sys2Proof/Laws/Draw.lean` speak of; the display and the flag follow from those laws.
-/
namespace Sys2Proof.Machine

section
variable {x y n : Nibble} {s : State}

theorem mem_spriteCols {k : Nat} : k ∈ spriteCols ↔ k < 8 := by
  simp only [spriteCols, List.mem_cons, List.not_mem_nil, or_false]
  omega

theorem spriteCovers_iff_rowsCover {row : Fin 32} {col : Fin 64} :
    SpriteCovers x y n s row col ↔
      RowsCover ((s.readV x).toNat % 64) ((s.readV y).toNat % 32) 0 (s.readBytes s.i.toNat n.toNat) row col := by
  constructor
  · rintro ⟨r, c, hr, hc, hbit, hrow, hcol⟩
    exact ⟨r, _, Memory.getElem?_readBytes s.mem _ _ r hr, Fin.ext (by simpa using hrow), c, mem_spriteCols.2 hc, hbit,
      Fin.ext hcol⟩
  · rintro ⟨r, b, hb, rfl, c, hc, hbit, rfl⟩
    have hr : r < n.toNat := by
      have hlen := (List.getElem?_eq_some_iff.1 hb).1
      rwa [State.readBytes, Memory.length_readBytes] at hlen
    obtain rfl : s.readByte (s.i.toNat + r) = b :=
      Option.some_injective _ ((Memory.getElem?_readBytes s.mem _ _ r hr).symm.trans hb)
    exact ⟨r, c, hr, mem_spriteCols.1 hc, hbit, by simp, rfl⟩

/-- A sprite has at most 15 rows. -/
theorem length_sprite_le (s : State) (n : Nibble) : (s.readBytes s.i.toNat n.toNat).length ≤ 32 := by
  rw [State.readBytes, Memory.length_readBytes]
  omega

theorem pixel_drawAndFlag_iff (row : Fin 32) (col : Fin 64) :
    (drawAndFlag x y n s).pixel row col = true ↔ Xor (s.pixel row col = true) (SpriteCovers x y n s row col) := by
  rw [spriteCovers_iff_rowsCover]
  exact (drawRows_spec _ _ _ 0 _ (length_sprite_le s n)).1 row col

theorem pixel_drawAndFlag_of_covers {row : Fin 32} {col : Fin 64} (h : SpriteCovers x y n s row col) :
    (drawAndFlag x y n s).pixel row col = !s.pixel row col := by
  rw [Bool.eq_iff_iff, pixel_drawAndFlag_iff]
  simp [Xor, h]

theorem pixel_drawAndFlag_of_not_covers {row : Fin 32} {col : Fin 64} (h : ¬ SpriteCovers x y n s row col) :
    (drawAndFlag x y n s).pixel row col = s.pixel row col := by
  rw [Bool.eq_iff_iff, pixel_drawAndFlag_iff, xor_of_not h]

theorem collision_drawSprite_iff :
    (drawSprite x y n s).collision = true ↔ ∃ row col, SpriteCovers x y n s row col ∧ s.pixel row col = true := by
  simp only [spriteCovers_iff_rowsCover]
  exact ((drawRows_spec _ _ _ 0 _ (length_sprite_le s n)).2).trans (or_iff_right Bool.false_ne_true)

theorem readV_drawAndFlag_flag : (drawAndFlag x y n s).readV 0xF#4 = flagByte (drawSprite x y n s).collision :=
  State.readV_writeV_same _ 0xF#4 _

theorem keepsRegsBut_drawAndFlag : KeepsRegsBut [0xF#4] s (drawAndFlag x y n s) :=
  keepsRegsBut_writeV (s.writeDisplay (drawSprite x y n s).display) 0xF#4 _

end

/-- Settles O32: the laws of the loops, read pixel by pixel, and the flag as the collision. -/
theorem drwInvertsExactlyTheCoveredPixels : Obligations.DrwInvertsExactlyTheCoveredPixels := by
  intro x y n s h
  refine ⟨_, exec_of_ownError_none (ownError_drw_none_iff.2 h), fun _ _ => pixel_drawAndFlag_of_covers,
    fun _ _ => pixel_drawAndFlag_of_not_covers, fun hon => ?_, fun hoff => ?_, keepsRegsBut_drawAndFlag,
    (keepsAllBut_drawAndFlag x y n s).mono (by decide)⟩
  · have hcol := collision_drawSprite_iff.2 hon
    rw [effect, readV_drawAndFlag_flag, hcol]
    rfl
  · have hcol : (drawSprite x y n s).collision = false := by
      rw [Bool.eq_false_iff, Ne, collision_drawSprite_iff]
      rintro ⟨row, col, hcov, hon⟩
      exact absurd hon (by rw [hoff row col hcov]; decide)
    rw [effect, readV_drawAndFlag_flag, hcol]
    rfl

/-- A sprite of no rows draws nothing, so all that is left is the flag. -/
theorem drawAndFlag_zero (x y : Nibble) (s : State) : drawAndFlag x y 0x0#4 s = s.writeV 0xF#4 0x00#8 := rfl

/-- Settles O33: the check is the first thing DRW does unless `n` is 0. -/
theorem drwChecksTheSpriteRange : Obligations.DrwChecksTheSpriteRange := by
  intro x y n s
  refine ⟨decode_wordXYN_drw x y n, fun hn hout => ?_, s.writeV 0xF#4 0x00#8, ?_, s.readV_writeV_same _ _,
    keepsRegsBut_writeV s _ _, keepsAllBut_writeV s _ _⟩
  · rw [exec_fault_iff, ownError_drw x y s hn, if_pos hout]
  · rw [exec_of_ownError_none (ownError_drw_zero x y s), effect, drawAndFlag_zero]

/-- The first draw keeps memory, `I` and the coordinates, so the second one covers the same pixels. -/
theorem spriteCovers_drawAndFlag {x y : Nibble} (n : Nibble) (s : State) (hx : x ≠ 0xF#4) (hy : y ≠ 0xF#4) (row : Fin 32)
    (col : Fin 64) : SpriteCovers x y n (drawAndFlag x y n s) row col ↔ SpriteCovers x y n s row col := by
  have hvx : (drawAndFlag x y n s).readV x = s.readV x := keepsRegsBut_drawAndFlag x (by simpa using hx)
  have hvy : (drawAndFlag x y n s).readV y = s.readV y := keepsRegsBut_drawAndFlag y (by simpa using hy)
  have hi : (drawAndFlag x y n s).i = s.i := rfl
  have hmem (a : Nat) : (drawAndFlag x y n s).readByte a = s.readByte a := rfl
  simp only [SpriteCovers, hvx, hvy, hi, hmem]

/-- Settles O34: a pixel is inverted twice or not at all. -/
theorem drwTwiceRestoresTheDisplay : Obligations.DrwTwiceRestoresTheDisplay := by
  intro x y n s t hx hy h
  obtain ⟨hnone, rfl⟩ := exec_next_iff.1 h
  refine ⟨_, exec_of_ownError_none (i := .drw x y n) (s := drawAndFlag x y n s) hnone, fun row col => ?_⟩
  by_cases hcov : SpriteCovers x y n s row col
  · have hcov' := (spriteCovers_drawAndFlag n s hx hy row col).2 hcov
    exact (pixel_drawAndFlag_of_covers hcov').trans (by rw [pixel_drawAndFlag_of_covers hcov, Bool.not_not])
  · have hcov' := hcov ∘ (spriteCovers_drawAndFlag n s hx hy row col).1
    exact (pixel_drawAndFlag_of_not_covers hcov').trans (pixel_drawAndFlag_of_not_covers hcov)

end Sys2Proof.Machine
end

section
/-!
Keypad skips, the key wait and the timer loads (spec/44_keypad_timer_memory.md R280 to R296).
-/
namespace Sys2Proof.Machine

/-! ## Skips on a key -/

theorem setWidth_eq_of_toNat {b : Byte} {k : Nibble} (h : b.toNat = k.toNat) : b.setWidth 4 = k := by
  bv_omega

theorem setWidth16_eq_of_toNat {b : Byte} {w : Word} (h : w.toNat = b.toNat) : b.setWidth 16 = w :=
  BitVec.eq_of_toNat_eq ((toNat_byte16 b).trans h.symm)

section
variable {x : Nibble} {s : State}

theorem exec_skp_of_key {k : Nibble} (h : (s.readV x).toNat = k.toNat) :
    exec (.skp x) s = .next (skipIf (s.keyDown k) s) := by
  rw [← setWidth_eq_of_toNat h]
  exact exec_of_ownError_none (ownError_skp_none_iff.2 (by omega))

theorem exec_sknp_of_key {k : Nibble} (h : (s.readV x).toNat = k.toNat) :
    exec (.sknp x) s = .next (skipIf (!s.keyDown k) s) := by
  rw [← setWidth_eq_of_toNat h]
  exact exec_of_ownError_none (ownError_sknp_none_iff.2 (by omega))

theorem exec_skp_of_no_key {w : Word} (h : 0xF < (s.readV x).toNat) (hw : w.toNat = (s.readV x).toNat) :
    exec (.skp x) s = .fault (.outOfBounds .key w) := by
  rw [← setWidth16_eq_of_toNat hw]
  exact exec_fault_iff.2 (if_pos h)

theorem exec_sknp_of_no_key {w : Word} (h : 0xF < (s.readV x).toNat) (hw : w.toNat = (s.readV x).toNat) :
    exec (.sknp x) s = .fault (.outOfBounds .key w) := by
  rw [← setWidth16_eq_of_toNat hw]
  exact exec_fault_iff.2 (if_pos h)

end

/-- Settles O35: the index check lets the sixteen key numbers through, and the skip tests that key. -/
theorem keypadSkipsReadTheNamedKey : Obligations.KeypadSkipsReadTheNamedKey := by
  intro x k s
  refine ⟨decode_wordXKK_skp x, decode_wordXKK_sknp x, fun hk => ⟨?_, ?_⟩,
    fun hout w hw => ⟨exec_skp_of_no_key hout hw, exec_sknp_of_no_key hout hw⟩⟩
  · exact ⟨_, exec_skp_of_key hk, fun hdown => by simp [hdown], fun hup => by simp [hup], keepsAllBut_skipIf _ s⟩
  · exact ⟨_, exec_sknp_of_key hk, fun hup => by simp [hup], fun hdown => by simp [hdown], keepsAllBut_skipIf _ s⟩

/-! ## Timers -/

theorem exec_ldVDt (x : Nibble) (s : State) : exec (.ldVDt x) s = .next (s.writeV x s.dt) := rfl

theorem exec_ldDtV (x : Nibble) (s : State) : exec (.ldDtV x) s = .next (s.writeDt (s.readV x)) := rfl

theorem exec_ldStV (x : Nibble) (s : State) : exec (.ldStV x) s = .next (s.writeSt (s.readV x)) := rfl

/-- Settles O36: each is one write. -/
theorem timerLoadsCopyOneByte : Obligations.TimerLoadsCopyOneByte := fun x s =>
  ⟨decode_wordXKK_ldVDt x, decode_wordXKK_ldDtV x, decode_wordXKK_ldStV x,
    ⟨_, exec_ldVDt x s, s.readV_writeV_same x _, keepsRegsBut_writeV s x _, keepsAllBut_writeV s x _⟩,
    ⟨_, exec_ldDtV x s, s.writeDt_dt _, keepsAllBut_writeDt s _⟩,
    ⟨_, exec_ldStV x s, s.writeSt_st _, rfl, keepsAllBut_writeSt s _⟩⟩

/-! ## The key wait -/

theorem exec_ldVK_of_none {s : State} (x : Nibble) (h : ∀ k : Nibble, s.keyDown k = false) :
    exec (.ldVK x) s = .next (s.writePc (s.pc - 2#16)) := by
  rw [exec, execLdVK, s.lowestKeyDown_none.2 h]

/-- The search finds the key that is down with none below it. -/
theorem State.lowestKeyDown_eq_some {s : State} {k : Nibble} (hk : s.keyDown k = true)
    (hlow : ∀ j : Nibble, j.toNat < k.toNat → s.keyDown j = false) : s.lowestKeyDown = some k := by
  cases hf : s.lowestKeyDown with
  | none => simp [s.lowestKeyDown_none.1 hf k] at hk
  | some j =>
    obtain ⟨hj, hjlow⟩ := State.lowestKeyDown_some hf
    have hjk : ¬ j.toNat < k.toNat := fun h => by simp [hlow j h] at hj
    have hkj : ¬ k.toNat < j.toNat := fun h => by simp [hjlow k h] at hk
    exact congrArg some (BitVec.eq_of_toNat_eq (by omega))

theorem exec_ldVK_of_lowest {s : State} {k : Nibble} (x : Nibble) (hk : s.keyDown k = true)
    (hlow : ∀ j : Nibble, j.toNat < k.toNat → s.keyDown j = false) :
    exec (.ldVK x) s = .next (s.writeV x (k.setWidth 8)) := by
  rw [exec, execLdVK, State.lowestKeyDown_eq_some hk hlow]

/-- Settles O37: with no key down the step's advance is taken back; else the search finds the lowest key. -/
theorem keyWaitRepeatsOrTakesTheLowestKey : Obligations.KeyWaitRepeatsOrTakesTheLowestKey := by
  intro x s
  refine ⟨decode_wordXKK_ldVK x, fun hup => ⟨?_, fun hf hd => ?_⟩, fun k hk hlow => ?_⟩
  · exact ⟨_, exec_ldVK_of_none x hup, BitVec.sub_add_cancel s.pc 2#16, keepsAllBut_writePc s _⟩
  · exact ⟨_, (step_of_instr hf hd).trans (exec_ldVK_of_none x hup), BitVec.add_sub_cancel s.pc 2#16⟩
  · refine ⟨_, exec_ldVK_of_lowest x hk hlow, ?_, keepsRegsBut_writeV s x _, keepsAllBut_writeV s x _⟩
    rw [State.readV_writeV_same]
    exact BitVec.toNat_setWidth_of_le (by decide)

end Sys2Proof.Machine
end

section
/-!
The memory address unit (spec/44_keypad_timer_memory.md R300 to R316): `I` arithmetic and the glyph address, then the bytes the two
stores leave and the registers the load leaves.
-/
namespace Sys2Proof.Machine

/-! ## `I` -/

theorem exec_addIV (x : Nibble) (s : State) : exec (.addIV x) s = .next (s.writeI (s.i + byte16 (s.readV x))) := rfl

/-- Settles O38: the 16-bit sum is the sum mod 2^16, and only `I` is written. -/
theorem addIAddsTheRegister : Obligations.AddIAddsTheRegister := by
  intro x s
  refine ⟨decode_wordXKK_addIV x, _, exec_addIV x s, ?_, keepsAllBut_writeI s _⟩
  rw [State.writeI_i, BitVec.toNat_add, toNat_byte16]

theorem toNat_glyphAddr (d : Nibble) : (glyphAddr d).toNat = 5 * d.toNat := by
  revert d
  decide

theorem exec_ldFV_of_digit {x : Nibble} {s : State} (h : (s.readV x).toNat ≤ 0xF) :
    exec (.ldFV x) s = .next (s.writeI (glyphAddr ((s.readV x).setWidth 4))) :=
  exec_of_ownError_none (ownError_ldFV_none_iff.2 h)

theorem exec_ldFV_of_no_digit {x : Nibble} {s : State} {w : Word} (h : 0xF < (s.readV x).toNat)
    (hw : w.toNat = (s.readV x).toNat) : exec (.ldFV x) s = .fault (.outOfBounds .font w) := by
  rw [← setWidth16_eq_of_toNat hw]
  exact exec_fault_iff.2 (if_pos h)

/-- Settles O39: a digit keeps its value in four bits, and the sixteen glyph addresses are five times the digit. -/
theorem ldFPointsAtTheGlyph : Obligations.LdFPointsAtTheGlyph := by
  intro x s
  refine ⟨decode_wordXKK_ldFV x, fun h => ⟨_, exec_ldFV_of_digit h, ?_, keepsAllBut_writeI s _⟩,
    fun hout w hw => exec_ldFV_of_no_digit hout hw⟩
  rw [State.writeI_i, toNat_glyphAddr, BitVec.toNat_setWidth, Nat.mod_eq_of_lt (by omega)]

/-! ## Stores -/

section
variable {x : Nibble} {s : State}

theorem exec_ldBV_of_out (h : 0xFFD < s.i.toNat) : exec (.ldBV x) s = .fault (.outOfBounds .memory s.i) :=
  exec_fault_iff.2 (if_pos (by omega))

theorem exec_ldMemV_of_out (h : 0xFFF < s.i.toNat + x.toNat) : exec (.ldMemV x) s = .fault (.outOfBounds .memory s.i) :=
  exec_fault_iff.2 (if_pos h)

theorem exec_ldVMem_of_out (h : 0xFFF < s.i.toNat + x.toNat) : exec (.ldVMem x) s = .fault (.outOfBounds .memory s.i) :=
  exec_fault_iff.2 (if_pos h)

theorem readByte_effect_ldBV (hm : s.mem.wf = true) (h : s.i.toNat ≤ 0xFFD) (k : Nat)
    (hk : k < (decimalDigits (s.readV x)).length) :
    (effect (.ldBV x) s).readByte (s.i.toNat + k) = (decimalDigits (s.readV x))[k] :=
  s.readByte_writeBytes_in _ k _ hm (length_decimalDigits_fits _ h) hk

/-- The register `V[y]` is the `y`-th of the list that starts at `V[0]`. -/
theorem State.getElem_readRegs (s : State) {m : Nat} (y : Nibble) (hy : y.toNat < (s.readRegs 0 m).length) :
    (s.readRegs 0 m)[y.toNat] = s.readV y := by
  have hm : y.toNat < m := by rwa [State.length_readRegs] at hy
  obtain ⟨_, hget⟩ := List.getElem?_eq_some_iff.1 (s.getElem?_readRegs m 0 y.toNat hm)
  rw [hget, Nat.zero_add, BitVec.ofNat_toNat, BitVec.setWidth_eq]

theorem readByte_effect_ldMemV (hm : s.mem.wf = true) (h : s.i.toNat + x.toNat ≤ 0xFFF) {y : Nibble}
    (hy : y.toNat ≤ x.toNat) : (effect (.ldMemV x) s).readByte (s.i.toNat + y.toNat) = s.readV y := by
  have hlen : y.toNat < (s.readRegs 0 (x.toNat + 1)).length := by
    rw [State.length_readRegs]
    omega
  exact (s.readByte_writeBytes_in _ _ _ hm (length_readRegs_fits h) hlen).trans (s.getElem_readRegs y hlen)

theorem keepsMemoryOutside_effect_ldMemV : KeepsMemoryOutside (s.memAddr 0) (x.toNat + 1) s (effect (.ldMemV x) s) := by
  have hkeeps := keepsMemoryOutside_writeBytes s (s.memAddr 0) (s.readRegs 0 (x.toNat + 1))
  rwa [State.length_readRegs] at hkeeps

/-! ## The load -/

theorem readV_effect_ldVMem {y : Nibble} (hy : y.toNat ≤ x.toNat) :
    (effect (.ldVMem x) s).readV y = s.readByte (s.i.toNat + y.toNat) := by
  have hlen : (s.readBytes (s.memAddr 0) (x.toNat + 1)).length = x.toNat + 1 := Memory.length_readBytes _ _ _
  obtain ⟨hlt, hget⟩ :=
    List.getElem?_eq_some_iff.1 (Memory.getElem?_readBytes s.mem (x.toNat + 1) (s.memAddr 0) y.toNat (by omega))
  have hin := State.readV_writeRegs_in (s.readBytes (s.memAddr 0) (x.toNat + 1)) s 0 y.toNat (by omega) hlt
  rw [Nat.zero_add, BitVec.ofNat_toNat, BitVec.setWidth_eq] at hin
  exact hin.trans hget

theorem readV_effect_ldVMem_above {y : Nibble} (hy : x.toNat < y.toNat) : (effect (.ldVMem x) s).readV y = s.readV y :=
  State.readV_writeRegs_above (Memory.length_readBytes _ _ _) hy

end

/-! ## The statements about the transfers -/

/-- Settles O40: the three digits of a byte are its decimal digits by division, and fit in a byte. -/
theorem ldBStoresTheDecimalDigits : Obligations.LdBStoresTheDecimalDigits := by
  intro x s
  refine ⟨decode_wordXKK_ldBV x, fun h => ?_, exec_ldBV_of_out⟩
  refine ⟨_, exec_of_ownError_none (ownError_ldBV_none_iff.2 h), fun hm => ?_,
    keepsMemoryOutside_writeBytes s (s.memAddr 0) (decimalDigits (s.readV x)), effect_keeps (.ldBV x) s⟩
  have hhundreds := readByte_effect_ldBV (x := x) hm h 0 (by simp [decimalDigits])
  have htens := readByte_effect_ldBV (x := x) hm h 1 (by simp [decimalDigits])
  have hones := readByte_effect_ldBV (x := x) hm h 2 (by simp [decimalDigits])
  rw [Nat.add_zero] at hhundreds
  rw [hhundreds, htens, hones]
  simp only [decimalDigits, List.getElem_cons_zero, List.getElem_cons_succ, BitVec.toNat_ofNat]
  omega

/-- Settles O41: the list stored has `V[y]` in its place `y`. -/
theorem ldMemStoresTheRegisters : Obligations.LdMemStoresTheRegisters := by
  intro x s
  refine ⟨decode_wordXKK_ldMemV x, fun h => ?_, exec_ldMemV_of_out⟩
  exact ⟨_, exec_of_ownError_none (ownError_ldMemV_none_iff.2 h), fun hm _ => readByte_effect_ldMemV hm h,
    keepsMemoryOutside_effect_ldMemV, effect_keeps (.ldMemV x) s⟩

/-- Settles O42: the list loaded has the byte at `I + y` in its place `y`. -/
theorem ldVLoadsTheRegisters : Obligations.LdVLoadsTheRegisters := by
  intro x s
  refine ⟨decode_wordXKK_ldVMem x, fun h => ?_, exec_ldVMem_of_out⟩
  exact ⟨_, exec_of_ownError_none (ownError_ldVMem_none_iff.2 h), fun _ => readV_effect_ldVMem,
    fun _ => readV_effect_ldVMem_above, effect_keeps (.ldVMem x) s⟩

/-- Settles O43: the load reads the bytes the store left. -/
theorem loadAfterStoreRestoresTheRegisters : Obligations.LoadAfterStoreRestoresTheRegisters := by
  intro x s t r hm h hmem hi
  obtain ⟨hnone, rfl⟩ := exec_next_iff.1 h
  have hin := ownError_ldMemV_none_iff.1 hnone
  refine ⟨_, exec_of_ownError_none (ownError_ldVMem_none_iff.2 (by rwa [hi])), fun y hy => ?_⟩
  calc (effect (.ldVMem x) r).readV y = r.readByte (r.i.toNat + y.toNat) := readV_effect_ldVMem hy
    _ = (effect (.ldMemV x) s).readByte (s.i.toNat + y.toNat) := by rw [State.readByte, State.readByte, hmem, hi]
    _ = s.readV y := readByte_effect_ldMemV hm hin hy

/-- Settles O44: the first two bytes stored from `I`, which is `pc`, are the word at `pc`. -/
theorem storedWordIsFetchedNext : Obligations.StoredWordIsFetchedNext := by
  intro x s t hm hx h hpc
  obtain ⟨hnone, rfl⟩ := exec_next_iff.1 h
  have hin := ownError_ldMemV_none_iff.1 hnone
  have hpc' : (effect (.ldMemV x) s).pc = s.i := hpc
  have hf : (effect (.ldMemV x) s).fetchable = true := by
    rw [State.fetchable_iff, hpc']
    omega
  have hhigh : (effect (.ldMemV x) s).readByte s.i.toNat = s.readV 0x0#4 :=
    readByte_effect_ldMemV (y := 0x0#4) hm hin (Nat.zero_le _)
  have hlow : (effect (.ldMemV x) s).readByte (s.i.toNat + 1) = s.readV 0x1#4 :=
    readByte_effect_ldMemV (y := 0x1#4) hm hin hx
  rw [fetchWord_in hf, State.wordAtPc, hpc', hhigh, hlow]
  rfl

end Sys2Proof.Machine
end

section
/-!
The host's keypad, display, sound and load interfaces (spec/60_exceptions.md R355, R356, R362, spec/70_reset_and_hazards.md R374).
-/
namespace Sys2Proof.Machine

theorem keepsAllBut_setKey (s : State) (k : Nibble) (d : Bool) : KeepsAllBut [.keypad] s (s.setKey k d) := by
  intro p hp
  cases p with
  | keypad => simp at hp
  | _ => simp [Part.same]

theorem State.length_readDisplay (s : State) : s.readDisplay.length = 256 :=
  Vector.length_toList

theorem State.getElem?_readDisplay (s : State) (b : Fin 256) : s.readDisplay[b.val]? = some (s.display.get b) := by
  rw [State.readDisplay, List.getElem?_eq_getElem (by rw [Vector.length_toList]; exact b.isLt), Vector.getElem_toList,
    Vector.get_eq_getElem]

/-- Settles O59: one key is written; the list is the bitmap; the sound is the test of ST. -/
theorem keypadDisplayAndSoundInterfaces : Obligations.KeypadDisplayAndSoundInterfaces := by
  intro s k d
  refine ⟨?_, fun j hj => ?_, keepsAllBut_setKey s k d, s.length_readDisplay, s.getElem?_readDisplay, fun _ => rfl,
    bne_iff_ne⟩
  · rw [State.keyDown_setKey, if_pos rfl]
  · rw [State.keyDown_setKey, if_neg hj]

/-- Settles O60: the image is stored where it fits in memory, and the two refusals are the branches before it. -/
theorem loadBytesStoresTheImageOrIsRefused : Obligations.LoadBytesStoresTheImageOrIsRefused := by
  intro s a bs
  refine ⟨fun hfits => ?_, fun hout => ?_, Session.apply_loadBytes_cycled rfl a bs⟩
  · exact ⟨s.writeBytes a bs, Session.apply_loadBytes_in rfl (State.loadBytes_eq_some.2 ⟨hfits, rfl⟩),
      fun hm k hk => s.readByte_writeBytes_in a k bs hm hfits hk, keepsMemoryOutside_writeBytes s a bs,
      keepsAllBut_writeBytes s a bs⟩
  · exact Session.apply_loadBytes_out rfl (if_neg (Nat.not_le.2 hout))

end Sys2Proof.Machine
end
